-- ==== Sys2Proof/Word.lean ====
section
/-!
DEFINITION. The value types of the block: bytes and the fields assembled from them (00_scope.md R6).
-/

namespace Sys2Proof

/-- A byte, an unsigned integer in 0..255; bit 7 is its most significant bit (R6, R80). -/
abbrev Byte := BitVec 8

/-- An unsigned 16 bit field (R6). -/
abbrev U16 := BitVec 16

/-- An unsigned 32 bit field (R6). -/
abbrev U32 := BitVec 32

/-- The 32 bit pattern of a single precision field; the block does no arithmetic on it (R6, R125). -/
abbrev F32Bits := BitVec 32

/-- The 64 bit pattern of a double precision field; the block does no arithmetic on it (R6, R125). -/
abbrev F64Bits := BitVec 64

/-- The byte that holds `n` modulo 256. -/
abbrev byteOfNat (n : Nat) : Byte := BitVec.ofNat 8 n

end Sys2Proof
end

