-- ==== Sys2Proof/Config.lean ====
section
/-!
DEFINITION. The block's parameters (00_scope.md R5). All but TS_WIDTH are hardwired (10_state.md R29); every literal is
UNVERIFIED in the sense of 93_implementation_defined.md U3 (log entry 12).
-/

namespace Sys2Proof.Config

/-- STX, the start marker at frame offset 0 (R5). -/
abbrev stx : Byte := 0x02
/-- ETX, the end marker, last byte of a frame (R5). -/
abbrev etx : Byte := 0x03
/-- PKT_GENOUT, the one accepted packet type (R5). -/
abbrev pktGenout : Byte := 0x40
/-- REC_INS, record type 49 (R5). -/
abbrev recIns : Byte := 0x31
/-- REC_INS_RMS, record type 50 (R5). -/
abbrev recInsRms : Byte := 0x32
/-- REC_51, record type 51: recognised, no decoder (R5). -/
abbrev rec51 : Byte := 0x33
/-- HDR_LEN, the bytes before the length region (R5). -/
abbrev hdrLen : Nat := 4
/-- TRAILER_LEN, checksum and ETX (R5). -/
abbrev trailerLen : Nat := 2
/-- PAGE_HDR_LEN, transmission number and the two paging bytes, counted inside the length (R5). -/
abbrev pageHdrLen : Nat := 3
/-- SR_HDR_LEN, the type and length bytes of a sub-record (R5). -/
abbrev srHdrLen : Nat := 2
/-- LEN_WIDTH, the width in bits of a length byte (R5): a length byte is a `Byte`. -/
abbrev lenWidth : Nat := 8
/-- MAX_FRAME, 4 + 255 + 2 (R5). -/
abbrev maxFrame : Nat := 261
/-- MIN_FRAME, 4 + 0 + 2 (R5). -/
abbrev minFrame : Nat := 6
/-- MIN_VALID_FRAME, 4 + 3 + 2 (R5). -/
abbrev minValidFrame : Nat := 9
/-- MAX_PAYLOAD, 255 - 3 (R5). -/
abbrev maxPayload : Nat := 252
/-- BUF_CAPACITY, the addresses 0 to 260 of the frame buffer (R5, R50). -/
abbrev bufCapacity : Nat := 261
/-- INS_BODY_MIN, the smallest body the type 49 decoder accepts (R5, R200). -/
abbrev insBodyMin : Nat := 104
/-- RMS_BODY_MIN, the smallest body the type 50 decoder accepts (R5, R202). -/
abbrev rmsBodyMin : Nat := 44

/-- TS_WIDTH, the width in bits of the timestamp input: OPEN in the spec, default 64 (R5, D3). It has no body: a claim holds for
every width (log entry 4). -/
opaque tsWidth : Nat

end Sys2Proof.Config

namespace Sys2Proof

/-- A value of the timestamp input `now`, and of `capture_ts`: TS_WIDTH bits (R30, R31, R32). The block only copies it. -/
abbrev Timestamp := BitVec Config.tsWidth

end Sys2Proof
end

