-- ==== Sys2Proof/Machine/Flags.lean ====
section
/-!
DEFINITION. The block has no status flags, condition codes or predicates (10_state.md R28). What other machines keep in
flags is here the additive checksum, computed and compared inside one step (42_frame_validate.md R165, R166; 10_state.md R25).
-/

namespace Sys2Proof.Machine

/-- `s[a..b]`: the bytes of `s` from offset `a` to offset `b` inclusive, empty when `b < a` (R7). -/
def slice (s : List Byte) (a b : Nat) : List Byte := (s.drop a).take (b + 1 - a)

/-- The 8 bit accumulator run over a list: it starts at 0 and each byte is added modulo 256 (R25, R166). -/
def sumBytes (bs : List Byte) : Byte := bs.foldl (fun sum b => sum + b) 0

/-- `Sum8(s, a, b)` (R166). -/
def sum8 (s : List Byte) (a b : Nat) : Byte := sumBytes (slice s a b)

/-- The checksummed region of a frame, frame offsets 1 to `3 + L`: status, packet type, length byte, length region
(R12, R51, R87). -/
def checksummedRegion (status packetType : Byte) (region : List Byte) : List Byte :=
  status :: packetType :: byteOfNat region.length :: region

/-- The checksum a well-formed frame carries (R87, R165). -/
def frameChecksum (status packetType : Byte) (region : List Byte) : Byte :=
  sumBytes (checksummedRegion status packetType region)

end Sys2Proof.Machine
end

