-- ==== Sys2Proof/Syntax.lean ====
section
/-!
DEFINITION. The instruction set: the six rows of spec/opcode_table.json (30_encoding.md R80, R81, R90, R95).
-/

namespace Sys2Proof

/-- The two formats of the wire protocol (R80). -/
inductive Format where
  /-- Format OF, an outer frame of `L + 6` bytes. -/
  | outerFrame
  /-- Format SR, a sub-record of `2 + l` bytes. -/
  | subRecord
deriving DecidableEq, Repr

/-- One constructor per row of spec/opcode_table.json. A frame is held by its fields: `region` is the length region, frame
offsets 4 to `3 + L`, so that `L` is its length (R12, R51, R172). A sub-record is held by its body, so that `l` is the
body's length (R90). -/
inductive Instr where
  /-- GENOUT: an outer frame of packet type 0x40 (R81, R83, R160). -/
  | genout (status : Byte) (region : List Byte) (checksum etx : Byte)
  /-- PKT_OTHER: an outer frame of any other packet type (R83, R162). -/
  | pktOther (status packetType : Byte) (region : List Byte) (checksum etx : Byte)
  /-- INS: a sub-record of type 0x31 (R91, R201). -/
  | ins (body : List Byte)
  /-- INS_RMS: a sub-record of type 0x32 (R92, R203). -/
  | insRms (body : List Byte)
  /-- REC51: a sub-record of type 0x33 (R205). -/
  | rec51 (body : List Byte)
  /-- REC_OTHER: a sub-record of any other type (R206). -/
  | recOther (recordType : Byte) (body : List Byte)
deriving DecidableEq, Repr

/-- The format a row belongs to. -/
def Instr.format : Instr → Format
  | .genout _ _ _ _ => .outerFrame
  | .pktOther _ _ _ _ _ => .outerFrame
  | .ins _ => .subRecord
  | .insRms _ => .subRecord
  | .rec51 _ => .subRecord
  | .recOther _ _ => .subRecord

/-- The row's mnemonic in spec/opcode_table.json. -/
def Instr.mnemonic : Instr → String
  | .genout _ _ _ _ => "GENOUT"
  | .pktOther _ _ _ _ _ => "PKT_OTHER"
  | .ins _ => "INS"
  | .insRms _ => "INS_RMS"
  | .rec51 _ => "REC51"
  | .recOther _ _ => "REC_OTHER"

end Sys2Proof
end

