-- ==== Sys2Proof/WellFormed.lean ====
section
/-!
DEFINITION. Which terms of `Instr` stand for bytes on the wire.
-/

namespace Sys2Proof

/-- The length of a region or body is the value of one length byte (R81, R90): at most 255. -/
abbrev lengthFits (bs : List Byte) : Bool := bs.length ≤ 255

/-- A default row stands only for the types its row leaves over (R83, R95). -/
def Instr.typeFits : Instr → Bool
  | .genout _ _ _ _ => true
  | .pktOther _ packetType _ _ _ => packetType != Config.pktGenout
  | .ins _ => true
  | .insRms _ => true
  | .rec51 _ => true
  | .recOther recordType _ =>
    recordType != Config.recIns && recordType != Config.recInsRms && recordType != Config.rec51

/-- The bytes that the instruction's length byte counts: the length region of a frame, the body of a sub-record. -/
def Instr.counted : Instr → List Byte
  | .genout _ region _ _ => region
  | .pktOther _ _ region _ _ => region
  | .ins body => body
  | .insRms body => body
  | .rec51 body => body
  | .recOther _ body => body

/-- A well-formed instruction: its length fits the length byte and its type byte belongs to its row. -/
def WellFormed (i : Instr) : Bool := lengthFits i.counted && i.typeFits

/-- A well-formed sub-record. -/
abbrev Instr.isRecord (i : Instr) : Bool := WellFormed i && i.format == .subRecord

/-- A well-formed outer frame. -/
abbrev Instr.isFrame (i : Instr) : Bool := WellFormed i && i.format == .outerFrame

end Sys2Proof
end

