-- ==== Sys2Proof/Decode.lean ====
section
/-!
DEFINITION. Decoding bytes to instructions, the opcode table as data, and the encoder (30_encoding.md).
-/

namespace Sys2Proof

/-- Why bytes are no instruction of a format. -/
inductive DecodeError where
  /-- Fewer bytes than the format and its length byte need (R82, R93). -/
  | incomplete
  /-- Frame offset 0 does not hold the start marker (R81): the byte that stands there. -/
  | badStart (found : Byte)
deriving DecidableEq, Repr

/-- The packet type byte selects the row of a frame (R83, R95). -/
def selectFrame (status packetType : Byte) (region : List Byte) (checksum etx : Byte) : Instr :=
  if packetType = Config.pktGenout then .genout status region checksum etx
  else .pktOther status packetType region checksum etx

/-- The record type byte alone selects the row of a sub-record (R95). -/
def selectRecord (recordType : Byte) (body : List Byte) : Instr :=
  if recordType = Config.recIns then .ins body
  else if recordType = Config.recInsRms then .insRms body
  else if recordType = Config.rec51 then .rec51 body
  else .recOther recordType body

/-- Format OF at the head of `bs`, with the bytes that follow the frame (R81, R82). -/
def decodeFrame (bs : List Byte) : Except DecodeError (Instr × List Byte) :=
  match bs with
  | start :: status :: packetType :: len :: tail =>
    if start ≠ Config.stx then .error (.badStart start)
    else
      match tail.drop len.toNat with
      | checksum :: etx :: rest => .ok (selectFrame status packetType (tail.take len.toNat) checksum etx, rest)
      | _ => .error .incomplete
  | _ => .error .incomplete

/-- Format SR at the head of `bs`, with the bytes that follow the sub-record (R90, R93). -/
def decodeSubRecord (bs : List Byte) : Except DecodeError (Instr × List Byte) :=
  match bs with
  | recordType :: len :: tail =>
    if tail.length < len.toNat then .error .incomplete
    else .ok (selectRecord recordType (tail.take len.toNat), tail.drop len.toNat)
  | _ => .error .incomplete

/-- The decoder: the instruction at the head of any bytes read as format `fmt`, and the bytes after it, or the reason
there is none. The two formats overlap, so the reader of the bytes says which it wants (R80, R95). -/
def decode (fmt : Format) (bs : List Byte) : Except DecodeError (Instr × List Byte) :=
  match fmt with
  | .outerFrame => decodeFrame bs
  | .subRecord => decodeSubRecord bs

/-- The bytes of a frame from its fields (R81, R99). -/
def frameBytes (status packetType : Byte) (region : List Byte) (checksum etx : Byte) : List Byte :=
  Config.stx :: status :: packetType :: byteOfNat region.length :: (region ++ [checksum, etx])

/-- The bytes of a sub-record: `REC(t, body)` (R90, R98). -/
def recordBytes (recordType : Byte) (body : List Byte) : List Byte :=
  recordType :: byteOfNat body.length :: body

/-- The encoder: the bytes of an instruction, written from R81 and R90. -/
def encode : Instr → List Byte
  | .genout status region checksum etx => frameBytes status Config.pktGenout region checksum etx
  | .pktOther status packetType region checksum etx => frameBytes status packetType region checksum etx
  | .ins body => recordBytes Config.recIns body
  | .insRms body => recordBytes Config.recInsRms body
  | .rec51 body => recordBytes Config.rec51 body
  | .recOther recordType body => recordBytes recordType body

/-- `FRAMEX(status, type, txn, page, maxpage, payload)` with `LEN` and `CS` filled in (R98, R87). -/
def buildFrameX (status packetType txn page maxPage : Byte) (payload : List Byte) : List Byte :=
  let region := txn :: page :: maxPage :: payload
  frameBytes status packetType region (Machine.frameChecksum status packetType region) Config.etx

/-- `FRAME(status, txn, payload)`: the accepted frame that carries `payload` (R98, R99). -/
def buildFrame (status txn : Byte) (payload : List Byte) : List Byte :=
  buildFrameX status Config.pktGenout txn 0 0 payload

/-! ### The opcode table as data (spec/opcode_table.json, R95) -/

/-- A row: `mtch` and `mask` are the table's `match` and `mask` cut into bytes, the first byte first. -/
structure OpcodeRow where
  mnemonic : String
  format : Format
  mtch : List Byte
  mask : List Byte
deriving DecidableEq, Repr

/-- `(bytes AND mask) = match` (R95). A byte the instruction does not have (a 6 byte frame has no offset 6) takes part
only where the mask is 0. -/
def maskedMatch : List Byte → List Byte → List Byte → Bool
  | m :: mask, v :: mtch, b :: bs => ((b &&& m) == v) && maskedMatch mask mtch bs
  | m :: mask, v :: mtch, [] => m == 0 && v == 0 && maskedMatch mask mtch []
  | _, _, _ => true

/-- The six rows in file order (R95). -/
def opcodeTable : List OpcodeRow :=
  [ { mnemonic := "GENOUT", format := .outerFrame, mtch := [0x02, 0, 0x40, 0, 0, 0, 0], mask := [0xFF, 0, 0xFF, 0, 0, 0, 0] },
    { mnemonic := "PKT_OTHER", format := .outerFrame, mtch := [0x02, 0, 0, 0, 0, 0, 0], mask := [0xFF, 0, 0, 0, 0, 0, 0] },
    { mnemonic := "INS", format := .subRecord, mtch := [0x31, 0], mask := [0xFF, 0] },
    { mnemonic := "INS_RMS", format := .subRecord, mtch := [0x32, 0], mask := [0xFF, 0] },
    { mnemonic := "REC51", format := .subRecord, mtch := [0x33, 0], mask := [0xFF, 0] },
    { mnemonic := "REC_OTHER", format := .subRecord, mtch := [0, 0], mask := [0, 0] } ]

/-- The mnemonic of the first row of the format that matches: "rows are tried in file order" (R95). -/
def tableMnemonic (fmt : Format) (bs : List Byte) : Option String :=
  (opcodeTable.find? (fun row => row.format == fmt && maskedMatch row.mask row.mtch bs)).map (·.mnemonic)

/-! ### Words numbered as spec/opcode_table.json numbers them (log entry 9) -/

/-- The table gives a sub-record 16 bits and an outer frame 56. -/
def tableFormat (nbits : Nat) : Format := if nbits ≤ 16 then .subRecord else .outerFrame

/-- The bytes of the number `w` of `nbits` bits, "the first byte being the most significant" (R95), followed by zeros up
to the longest instruction. -/
def tableBytes (nbits w : Nat) : List Byte :=
  (List.range (nbits / 8)).map (fun k => byteOfNat (w / 256 ^ (nbits / 8 - 1 - k))) ++ List.replicate Config.maxFrame 0

/-- The instruction the decoder reads from the table's word `w`. -/
def decodeTableWord (nbits w : Nat) : Option Instr :=
  match decode (tableFormat nbits) (tableBytes nbits w) with
  | .ok (i, _) => some i
  | .error _ => none

/-- The bytes of a frame whose arrival runs the instruction of the table's word `w` (log entry 8): for an outer frame the
frame itself; for a sub-record an accepted frame (status 0, transmission number 0) with that sub-record as its payload, cut
to the 252 bytes a payload can hold. -/
def tableFrame (nbits w : Nat) : List Byte :=
  let bs := tableBytes nbits w
  match tableFormat nbits with
  | .outerFrame =>
    match bs with
    | _ :: _ :: _ :: len :: _ => bs.take (len.toNat + Config.hdrLen + Config.trailerLen)
    | _ => bs
  | .subRecord =>
    match bs with
    | _ :: len :: _ => buildFrame 0 0 ((bs.take (Config.srHdrLen + len.toNat)).take Config.maxPayload)
    | _ => bs

end Sys2Proof
end

