-- ==== Sys2Proof/Machine/State.lean ====
section
/-!
DEFINITION. The machine's state as plain data, its input events and output items, the errors, and the reasons a step can stop
(10_state.md; 60_exceptions.md).
-/

namespace Sys2Proof.Machine

/-- The frame buffer's memory (R50): cells (address, byte), an address being a frame offset, in ONE canonical form: the
addresses are 0, 1, 2, ... in rising order up to the fill count. An address not listed holds no byte (log entry 5). -/
abbrev Memory := List Host.Cell

/-- The two kinds of input event (R10, R30). -/
inductive Event where
  /-- One byte `b` arrives; `now` is the value on the timestamp input. -/
  | byte (b : Byte) (now : Timestamp)
  /-- The reset input is asserted (R270). -/
  | reset
deriving DecidableEq, Repr

/-- Output item INS, the document's InsSample, fields in the order of R31. -/
structure InsSample where
  week : U16
  timeMs : U32
  alignStatus : Byte
  gnssStatus : Byte
  lat : F64Bits
  lon : F64Bits
  alt : F64Bits
  vN : F32Bits
  vE : F32Bits
  vD : F32Bits
  speed : F32Bits
  roll : F64Bits
  pitch : F64Bits
  heading : F64Bits
  track : F64Bits
  wx : F32Bits
  wy : F32Bits
  wz : F32Bits
  ax : F32Bits
  ay : F32Bits
  az : F32Bits
  captureTs : Timestamp
deriving DecidableEq, Repr

/-- Output item RMS, the document's InsRmsSample, fields in the order of R32. -/
structure RmsSample where
  week : U16
  timeMs : U32
  alignStatus : Byte
  gnssStatus : Byte
  posRmsN : F32Bits
  posRmsE : F32Bits
  posRmsD : F32Bits
  velRmsN : F32Bits
  velRmsE : F32Bits
  velRmsD : F32Bits
  rollRms : F32Bits
  pitchRms : F32Bits
  headingRms : F32Bits
  captureTs : Timestamp
deriving DecidableEq, Repr

/-- One output item, tagged with its channel by its constructor (R31 to R34). -/
inductive Item where
  /-- An InsSample on channel INS (R31). -/
  | ins (sample : InsSample)
  /-- An InsRmsSample on channel RMS (R32). -/
  | rms (sample : RmsSample)
  /-- An observability event on channel ERR: `code` 4 bits, `aux0` and `aux1` 8 bits, no timestamp (R33). -/
  | err (code : BitVec 4) (aux0 aux1 : Byte)
deriving DecidableEq, Repr

/-- The three output channels (R34). -/
inductive Channel where
  | ins
  | rms
  | err
deriving DecidableEq, Repr

/-- The nine errors (R230, R231), the spec's "exceptions". Raising one is a NEXT state, never a stop (R244). -/
inductive ErrorKind where
  /-- Code 1: frame offset 0 is not 0x02 (R161, R232). -/
  | badStart
  /-- Code 2: the packet type is not 0x40 (R162, R233). -/
  | unsupportedPacketType
  /-- Code 3: the length byte is below 3 (R163, R234). -/
  | lengthTooShort
  /-- Code 4: a paging byte is not 0 (R164, R235). -/
  | multiPageUnsupported
  /-- Code 5: the additive checksum differs (R165, R236). -/
  | checksumMismatch
  /-- Code 6: the last byte is not 0x03 (R167, R237). -/
  | badEnd
  /-- Code 7: the next sub-record does not fit (R182, R184, R238). -/
  | truncatedSubRecord
  /-- Code 8: no decoder for the record type (R205, R206, R239). -/
  | unknownOrUnimplementedRecordType
  /-- Code 9: the body is smaller than the fixed layout (R200, R202, R240). -/
  | recordTooShort
deriving DecidableEq, Repr

/-- The two classes of error (R230). -/
inductive ErrorClass where
  /-- The unit dropped is the frame, or what is left of its payload (R231). -/
  | framingError
  /-- The unit dropped is one sub-record (R231). -/
  | recordError
deriving DecidableEq, Repr

/-- The two conditions of the synchronizer, read off the buffer (R22). -/
inductive Mode where
  | hunt
  | collect
deriving DecidableEq, Repr

/-- Why a step stops. The spec's block never stops (R244); no fault here can be raised from a state that meets R21. -/
inductive Fault where
  /-- Raised by the append of an arriving byte (`State.storeByte`) when its address is not one of the buffer's addresses 0 to
  260 (R50). Safe: R50 says there is no overflow case; a state that meets R21 never raises it (log entry 5). -/
  | noSuchAddress (address : Nat)
  /-- Raised by `execIns` and `execInsRms` when a field would be read outside its sub-record. Safe: "Every read is in bounds by
  construction, and a model need not give an out-of-bounds read a meaning" (R57); never raised (log entry 6). -/
  | readOutside
deriving DecidableEq, Repr

/-- Why the machine has no meaning for what it holds. -/
inductive Refusal where
  /-- Raised by `exec` for an instruction that has no meaning yet. Safe. No arm of `exec` answers it. -/
  | notModelled (mnemonic : String)
  /-- Raised by `runFrame` for bytes that are no complete frame. Safe: a candidate is handed over only when it holds `L + 6`
  bytes (R144), so it is never raised by a step (log entry 7). -/
  | incompleteFrame
deriving DecidableEq, Repr

/-- The machine's state. `buf` is the one piece of state the block keeps from step to step (R20); the other three fields are
the block's interface: what it reads and what it has handed out (R30, R34; log entries 1 to 3). -/
structure State where
  /-- The partial-frame buffer (R20, R21, R50). -/
  buf : Memory
  /-- The value on the timestamp input in the current step (R9, R30). -/
  now : Timestamp
  /-- The input events that have still to arrive, oldest first (R30). -/
  input : List Event
  /-- The items the sinks have received, oldest first (R34). -/
  out : List Item
deriving DecidableEq, Repr

/-- What a meaning and a step answer. -/
abbrev Result := Host.Outcome State Fault Refusal

/-- The machine right after reset: `buf` is empty, nothing is emitted (R36, R270). `now` is an input and has no reset value in
the spec: 0 is a DESIGN CHOICE (log entry 3). No event is pending: the stream comes from outside (log entries 1 and 8). -/
def State.reset : State := { buf := [], now := 0, input := [], out := [] }

end Sys2Proof.Machine
end

