-- ==== Sys2Proof/Machine/Operands.lean ====
section
/-!
DEFINITION. The big-endian word decoder (40_byte_codec.md), the fields of the two record layouts (30_encoding.md R91, R92) and
their inverse (R99, R128).
-/

namespace Sys2Proof.Machine

/-- The unsigned integer of a byte sequence, the first byte the most significant (R94, R120). -/
def beNat (bs : List Byte) : Nat := bs.foldl (fun acc b => acc * 256 + b.toNat) 0

/-- `BE(s, a, n)`, which is `MemRead(a, n)` on the bytes `s` (R9, R120). No value when `a + n > |s|`, which "has no meaning and
never arises" (R120, R57; log entry 6). -/
def memRead (s : List Byte) (a n : Nat) : Option Nat :=
  if a + n ≤ s.length then some (beNat ((s.drop a).take n)) else none

/-- BE_U8 (R121). -/
def beU8 (s : List Byte) (a : Nat) : Option Byte := (memRead s a 1).map (BitVec.ofNat 8)

/-- BE_U16 (R122). -/
def beU16 (s : List Byte) (a : Nat) : Option U16 := (memRead s a 2).map (BitVec.ofNat 16)

/-- BE_U32 (R123). -/
def beU32 (s : List Byte) (a : Nat) : Option U32 := (memRead s a 4).map (BitVec.ofNat 32)

/-- BE_F32: the 32 bit pattern, moved and not computed (R124, R125). -/
def beF32 (s : List Byte) (a : Nat) : Option F32Bits := (memRead s a 4).map (BitVec.ofNat 32)

/-- BE_F64: the 64 bit pattern, moved and not computed (R125, R126). -/
def beF64 (s : List Byte) (a : Nat) : Option F64Bits := (memRead s a 8).map (BitVec.ofNat 64)

/-- The fields of a type 49 sub-record `r`, by sub-record offset (R91, R201). -/
def readInsSample (r : List Byte) (now : Timestamp) : Option InsSample := do
  let week ← beU16 r 2
  let timeMs ← beU32 r 4
  let alignStatus ← beU8 r 8
  let gnssStatus ← beU8 r 9
  let lat ← beF64 r 10
  let lon ← beF64 r 18
  let alt ← beF64 r 26
  let vN ← beF32 r 34
  let vE ← beF32 r 38
  let vD ← beF32 r 42
  let speed ← beF32 r 46
  let roll ← beF64 r 50
  let pitch ← beF64 r 58
  let heading ← beF64 r 66
  let track ← beF64 r 74
  let wx ← beF32 r 82
  let wy ← beF32 r 86
  let wz ← beF32 r 90
  let ax ← beF32 r 94
  let ay ← beF32 r 98
  let az ← beF32 r 102
  return { week, timeMs, alignStatus, gnssStatus, lat, lon, alt, vN, vE, vD, speed, roll, pitch, heading, track,
           wx, wy, wz, ax, ay, az, captureTs := now }

/-- The fields of a type 50 sub-record `r`, by sub-record offset (R92, R203). -/
def readRmsSample (r : List Byte) (now : Timestamp) : Option RmsSample := do
  let week ← beU16 r 2
  let timeMs ← beU32 r 4
  let alignStatus ← beU8 r 8
  let gnssStatus ← beU8 r 9
  let posRmsN ← beF32 r 10
  let posRmsE ← beF32 r 14
  let posRmsD ← beF32 r 18
  let velRmsN ← beF32 r 22
  let velRmsE ← beF32 r 26
  let velRmsD ← beF32 r 30
  let rollRms ← beF32 r 34
  let pitchRms ← beF32 r 38
  let headingRms ← beF32 r 42
  return { week, timeMs, alignStatus, gnssStatus, posRmsN, posRmsE, posRmsD, velRmsN, velRmsE, velRmsD,
           rollRms, pitchRms, headingRms, captureTs := now }

/-! ### The inverse: a body from field values (R99, R128) -/

/-- The `n` bytes of a value, most significant first: byte `k` is `(v / 256^(n-1-k)) mod 256` (R128). -/
def beBytes : Nat → Nat → List Byte
  | 0, _ => []
  | n + 1, v => byteOfNat (v / 256 ^ n) :: beBytes n v

/-- The 104 bytes of a type 49 body: each field at its offset of R91 (R99). -/
def insBody (x : InsSample) : List Byte :=
  beBytes 2 x.week.toNat ++ beBytes 4 x.timeMs.toNat ++ beBytes 1 x.alignStatus.toNat ++ beBytes 1 x.gnssStatus.toNat ++
  beBytes 8 x.lat.toNat ++ beBytes 8 x.lon.toNat ++ beBytes 8 x.alt.toNat ++
  beBytes 4 x.vN.toNat ++ beBytes 4 x.vE.toNat ++ beBytes 4 x.vD.toNat ++ beBytes 4 x.speed.toNat ++
  beBytes 8 x.roll.toNat ++ beBytes 8 x.pitch.toNat ++ beBytes 8 x.heading.toNat ++ beBytes 8 x.track.toNat ++
  beBytes 4 x.wx.toNat ++ beBytes 4 x.wy.toNat ++ beBytes 4 x.wz.toNat ++
  beBytes 4 x.ax.toNat ++ beBytes 4 x.ay.toNat ++ beBytes 4 x.az.toNat

/-- The 44 bytes of a type 50 body: each field at its offset of R92 (R99). -/
def rmsBody (x : RmsSample) : List Byte :=
  beBytes 2 x.week.toNat ++ beBytes 4 x.timeMs.toNat ++ beBytes 1 x.alignStatus.toNat ++ beBytes 1 x.gnssStatus.toNat ++
  beBytes 4 x.posRmsN.toNat ++ beBytes 4 x.posRmsE.toNat ++ beBytes 4 x.posRmsD.toNat ++
  beBytes 4 x.velRmsN.toNat ++ beBytes 4 x.velRmsE.toNat ++ beBytes 4 x.velRmsD.toNat ++
  beBytes 4 x.rollRms.toNat ++ beBytes 4 x.pitchRms.toNat ++ beBytes 4 x.headingRms.toNat

end Sys2Proof.Machine
end

