-- ==== Sys2Proof/Machine/Ops.lean ====
section
/-!
DEFINITION. The named operations: the frame buffer, emitting an item, raising an error (the block's one exception mechanism)
and where handling resumes after it (20_memory.md; 60_exceptions.md R241, R249).
-/

namespace Sys2Proof.Machine

/-! ### The frame buffer -/

/-- What an address that is not listed reads as: no value (log entry 5). -/
def Memory.unlisted : Option Byte := none

/-- The byte at an address of the buffer; it has no side effect (R58). -/
def Memory.read : Memory → Nat → Option Byte
  | [], _ => Memory.unlisted
  | (address, b) :: m, a => if address = a then some b else Memory.read m a

/-- `|buf|`, the fill count (R26). -/
def Memory.fill (m : Memory) : Nat := m.length

/-- The held bytes in address order. -/
def Memory.bytes (m : Memory) : List Byte := m.map (·.2)

/-- Cells for `bs` at rising addresses from `a`. -/
def cellsFrom : Nat → List Byte → Memory
  | _, [] => []
  | a, b :: bs => (a, b) :: cellsFrom (a + 1) bs

/-- The buffer that holds exactly `bs`, its first byte at address 0. -/
def Memory.ofBytes (bs : List Byte) : Memory := cellsFrom 0 bs

/-- The canonical form: the listed addresses are 0 up to the fill count, rising, all of them addresses of the buffer (R50). No
entry equals what an unlisted address reads as, which is no value. -/
def Memory.wf (m : Memory) : Bool := m.map (·.1) == List.range m.length && decide (m.length ≤ Config.bufCapacity)

/-- `MemWrite(|buf|, 1, b)`: the only store, the append of a byte at address `|buf|` (R9, R59); no value when the buffer has no
such address. -/
def Memory.append (m : Memory) (b : Byte) : Option Memory :=
  if m.fill < Config.bufCapacity then some (m ++ [(m.fill, b)]) else none

/-- The candidate's size `buf[3] + 6`, known once four bytes are held (R82); on natural numbers, no wrap (R27). -/
def Memory.frameSize (m : Memory) : Option Nat :=
  (m.read 3).map (fun len => len.toNat + Config.hdrLen + Config.trailerLen)

/-- The test of FRAME_COMPLETE: `|buf| >= 4 and |buf| = buf[3] + 6` (R144). -/
def Memory.complete (m : Memory) : Bool := m.frameSize == some m.fill

/-! ### The state's named updates -/

/-- HUNT or COLLECT, read off the buffer (R22). -/
def State.mode (s : State) : Mode := if s.buf.fill = 0 then .hunt else .collect

/-- Replaces the buffer. -/
def State.setBuf (s : State) (m : Memory) : State := { s with buf := m }

/-- Puts a value on the timestamp input (R30). -/
def State.setNow (s : State) (now : Timestamp) : State := { s with now := now }

/-- Replaces the events still to arrive. -/
def State.setInput (s : State) (events : List Event) : State := { s with input := events }

/-- `emit`: append an item to the output list; the sinks always accept (R9, R34). -/
def State.emit (s : State) (item : Item) : State := { s with out := s.out ++ [item] }

/-- `buf <- []`: the only erase, the emptying of the whole buffer (R59, R144, R270). -/
def State.clearBuf (s : State) : State := s.setBuf []

/-- COLLECT_BYTE's store, `buf <- buf ++ [b]` (R142). -/
def State.storeByte (s : State) (b : Byte) : Result :=
  match s.buf.append b with
  | some m => .next (s.setBuf m)
  | none => .fault (.noSuchAddress s.buf.fill)

/-- Go on from a next state; a stop stays a stop. -/
def andThen (r : Result) (f : State → Result) : Result :=
  match r with
  | .next s => f s
  | .fault e => .fault e
  | .refused e => .refused e

/-! ### Taking an exception, and resuming after it -/

/-- The numeric code of an error (R231). -/
def ErrorKind.code : ErrorKind → BitVec 4
  | .badStart => 1
  | .unsupportedPacketType => 2
  | .lengthTooShort => 3
  | .multiPageUnsupported => 4
  | .checksumMismatch => 5
  | .badEnd => 6
  | .truncatedSubRecord => 7
  | .unknownOrUnimplementedRecordType => 8
  | .recordTooShort => 9

/-- The class of an error (R230, R231). It is also its resume point: after a framing error the next candidate frame, after a
record error the next sub-record of the same payload (R249). -/
def ErrorKind.errorClass : ErrorKind → ErrorClass
  | .unknownOrUnimplementedRecordType => .recordError
  | .recordTooShort => .recordError
  | .badStart => .framingError
  | .unsupportedPacketType => .framingError
  | .lengthTooShort => .framingError
  | .multiPageUnsupported => .framingError
  | .checksumMismatch => .framingError
  | .badEnd => .framingError
  | .truncatedSubRecord => .framingError

/-- The ERR item of an error (R33, R231). -/
def ErrorKind.item (e : ErrorKind) (aux0 aux1 : Byte) : Item := .err e.code aux0 aux1

/-- `raise E(aux0, aux1)`: appends the ERR item and does nothing else: it saves no state, changes no mode and goes to no
handler (R241). Every error of the block is taken here. -/
def State.raise (s : State) (e : ErrorKind) (aux0 aux1 : Byte) : State := s.emit (e.item aux0 aux1)

/-- Where handling resumes after a record error, and after a decoded sub-record: the walker cursor moves over the whole
sub-record (R186, R249). Where it resumes after a framing error is `State.clearBuf`: HUNT (R145, R249). -/
def advance (pos len : Nat) : Nat := pos + Config.srHdrLen + len

/-! ### Output channels -/

/-- The channel an item is tagged with (R34). -/
def Item.channel : Item → Channel
  | .ins _ => .ins
  | .rms _ => .rms
  | .err _ _ _ => .err

/-- "The sequence seen on one channel is the sub-list of that channel's items, in the same order" (R34). -/
def channelItems (c : Channel) (items : List Item) : List Item := items.filter (fun item => item.channel == c)

/-- The capture timestamp of a sample; an ERR item carries none (R31 to R33, R204). -/
def Item.captureTs : Item → Option Timestamp
  | .ins x => some x.captureTs
  | .rms x => some x.captureTs
  | .err _ _ _ => none

end Sys2Proof.Machine
end

