-- ==== Sys2Proof/Machine/Records.lean ====
section
/-!
DEFINITION. The record decoders: the meanings of the four sub-record rows (44_record_decoders.md).
-/

namespace Sys2Proof.Machine

/-- INS (R200, R201, R207): the length test, then one INS item from the fixed offsets of the whole sub-record; bytes of the
body past the layout are not read. -/
def execIns (body : List Byte) (s : State) : Result :=
  if body.length < Config.insBodyMin then .next (s.raise .recordTooShort Config.recIns (byteOfNat body.length))
  else
    match readInsSample (recordBytes Config.recIns body) s.now with
    | some sample => .next (s.emit (.ins sample))
    | none => .fault .readOutside

/-- INS_RMS (R202, R203, R207). -/
def execInsRms (body : List Byte) (s : State) : Result :=
  if body.length < Config.rmsBodyMin then .next (s.raise .recordTooShort Config.recInsRms (byteOfNat body.length))
  else
    match readRmsSample (recordBytes Config.recInsRms body) s.now with
    | some sample => .next (s.emit (.rms sample))
    | none => .fault .readOutside

/-- REC51 (R205): recognised, no decoder; the body is not read. -/
def execRec51 (body : List Byte) (s : State) : Result :=
  .next (s.raise .unknownOrUnimplementedRecordType Config.rec51 (byteOfNat body.length))

/-- REC_OTHER (R206): the body is not read. -/
def execRecOther (recordType : Byte) (body : List Byte) (s : State) : Result :=
  .next (s.raise .unknownOrUnimplementedRecordType recordType (byteOfNat body.length))

end Sys2Proof.Machine
end

