-- ==== Sys2Proof/Machine/Walker.lean ====
section
/-!
DEFINITION. The sub-record walker and the demultiplexer (43_subrecord_walker.md).
-/

namespace Sys2Proof.Machine

/-- DISPATCH (R185): selection on all eight bits of the type byte; the four arms are the document's table. -/
def dispatch (t : Byte) (body : List Byte) (s : State) : Result :=
  if t = Config.recIns then execIns body s
  else if t = Config.recInsRms then execInsRms body s
  else if t = Config.rec51 then execRec51 body s
  else execRecOther t body s

/-- The loop of `Walk` (R180) from cursor `pos`. The first argument bounds the number of iterations; `|p|` of them are enough
because each moves the cursor by at least 2 (R186). `[]` is the end of LOOP_TEST (R181); one byte left fails CHK_HDR, and the byte
is not looked at (R182); then READ_HDR (R183), CHK_FIT (R184), DISPATCH (R185), ADVANCE whatever the dispatch did (R186). -/
def walkFrom (p : List Byte) : Nat → Nat → State → Result
  | 0, _, s => .next s
  | fuel + 1, pos, s =>
    let rem := p.length - pos
    match p.drop pos with
    | [] => .next s
    | [_] => .next (s.raise .truncatedSubRecord (byteOfNat pos) (byteOfNat rem))
    | t :: l :: tail =>
      if rem < Config.srHdrLen + l.toNat then .next (s.raise .truncatedSubRecord (byteOfNat pos) (byteOfNat rem))
      else andThen (dispatch t (tail.take l.toNat) s) (walkFrom p fuel (advance pos l.toNat))

/-- `Walk(p, now, out)` (R180). -/
def walk (p : List Byte) (s : State) : Result := walkFrom p p.length 0 s

end Sys2Proof.Machine
end

