-- ==== Sys2Proof/Machine/Frames.lean ====
section
/-!
DEFINITION. The frame validator: the meanings of the two outer-frame rows (42_frame_validate.md R160). Check 1 (CHK_START, R161)
is made by the decoder, which knows no frame without its start marker, and raised by `runFrame`.
-/

namespace Sys2Proof.Machine

/-- PKT_OTHER: check 2 fails, whatever the rest of the frame holds (R162). -/
def execPktOther (_status packetType : Byte) (_region : List Byte) (_checksum _etx : Byte) (s : State) : Result :=
  .next (s.raise .unsupportedPacketType packetType 0)

/-- GENOUT (R160): check 2a CHK_LEN (R163; a region of fewer than three bytes has no paging bytes), 3 CHK_PAGE (R164), 4 CHK_SUM
(R165), 5 CHK_END (R167), in this order, the first that fails alone; else ACCEPT, the walk of the payload (R168). -/
def execGenout (status : Byte) (region : List Byte) (checksum etx : Byte) (s : State) : Result :=
  match region with
  | _txn :: page :: maxPage :: payload =>
    let sum := frameChecksum status Config.pktGenout region
    if page ≠ 0 ∨ maxPage ≠ 0 then .next (s.raise .multiPageUnsupported page maxPage)
    else if sum ≠ checksum then .next (s.raise .checksumMismatch sum checksum)
    else if etx ≠ Config.etx then .next (s.raise .badEnd etx 0)
    else walk payload s
  | _ => .next (s.raise .lengthTooShort (byteOfNat region.length) 0)

end Sys2Proof.Machine
end

