-- ==== Sys2Proof/Machine/Dispatch.lean ====
section
/-!
DEFINITION. The meaning of every instruction: one arm per constructor of Instr.
-/

namespace Sys2Proof.Machine

def exec (i : Instr) (s : State) : Host.Outcome State Fault Refusal :=
  match i with
  | .genout status region checksum etx => Sys2Proof.Machine.execGenout status region checksum etx s
  | .pktOther status packetType region checksum etx => Sys2Proof.Machine.execPktOther status packetType region checksum etx s
  | .ins body => Sys2Proof.Machine.execIns body s
  | .insRms body => Sys2Proof.Machine.execInsRms body s
  | .rec51 body => Sys2Proof.Machine.execRec51 body s
  | .recOther recordType body => Sys2Proof.Machine.execRecOther recordType body s

end Sys2Proof.Machine
end

