-- ==== Sys2Proof/Machine/Sync.lean ====
section
/-!
DEFINITION. The frame synchronizer: what the block does with each input event (41_frame_sync.md; 70_reset_and_hazards.md R270).
-/

namespace Sys2Proof.Machine

/-- ProcessFrame on the bytes of a candidate (R160): the decoder reads the frame and its instruction runs. Bytes that do not begin
with the start marker raise BadStart, check 1 (R161); no candidate the synchronizer builds does. -/
def runFrame (f : List Byte) (s : State) : Result :=
  match decode .outerFrame f with
  | .ok (i, _) => exec i s
  | .error (.badStart found) => .next (s.raise .badStart found 0)
  | .error .incomplete => .refused .incompleteFrame

/-- HUNT_BYTE (R141): the start marker is kept as `buf[0]`; any other byte is dropped without a report. -/
def huntByte (b : Byte) (s : State) : Result :=
  if b = Config.stx then s.storeByte b else .next s

/-- FRAME_COMPLETE (R144): when the candidate is whole it is processed, and whatever the outcome the buffer is emptied (R145). -/
def frameComplete (s : State) : Result :=
  if s.buf.complete then andThen (runFrame s.buf.bytes s) (fun t => .next t.clearBuf) else .next s

/-- COLLECT_BYTE and the test after it (R142, R144). -/
def collectByte (b : Byte) (s : State) : Result := andThen (s.storeByte b) frameComplete

/-- The step for `Byte(b, now)` (R140). -/
def byteEvent (b : Byte) (now : Timestamp) (s : State) : Result :=
  match s.mode with
  | .hunt => huntByte b (s.setNow now)
  | .collect => collectByte b (s.setNow now)

/-- The step for `Reset` (R270, R271): the buffer is emptied, nothing is emitted, nothing else changes. -/
def resetEvent (s : State) : Result := .next s.clearBuf

/-- The response to one input event (R10). -/
def handleEvent (e : Event) (s : State) : Result :=
  match e with
  | .byte b now => byteEvent b now s
  | .reset => resetEvent s

/-- One step: the oldest pending event is taken and answered; with none pending the block is idle and keeps its state (R257). -/
def nextEvent (s : State) : Result :=
  match s.input with
  | [] => .next s
  | e :: events => handleEvent e (s.setInput events)

/-- Puts a candidate frame where the next step completes it: all its bytes but the last are held and the last is the next byte to
arrive, with `now` as it stands (log entry 8). -/
def State.holdFrame (s : State) (f : List Byte) : State :=
  (s.setBuf (Memory.ofBytes f.dropLast)).setInput (.byte (f.getLastD 0) s.now :: s.input)

end Sys2Proof.Machine
end

