-- ==== Sys2Proof/Machine/Step.lean ====
section
/-!
DEFINITION. The step, and the placing of one instruction where the step runs it.
-/

namespace Sys2Proof.Machine

/-- One step: the block's response to the next input event (00_scope.md R10). -/
def step (s : State) : Host.Outcome State Fault Refusal := nextEvent s

/-- `s` with the instruction of the table's word `w` about to run: the frame that carries it lacks only its last byte, which is the
next event (log entry 8). -/
def State.withFetchWord (s : State) (nbits w : Nat) : State := s.holdFrame (tableFrame nbits w)

end Sys2Proof.Machine
end

