-- ==== Sys2Proof/Safety.lean ====
section
/-!
DEFINITION. What claims say of states and runs: the invariants of the buffer (10_state.md R21), the codes that emitted items
may hold (R33), and whole streams.
-/

namespace Sys2Proof.Machine

/-- R21: between steps the buffer holds 0 to 260 bytes in canonical form; (a) if it holds a byte, `buf[0]` is the start marker;
(b) if it holds four, it holds fewer than `buf[3] + 6`. -/
abbrev State.Inv (s : State) : Prop :=
  s.buf.wf = true ∧ s.buf.fill < Config.bufCapacity ∧ (s.buf ≠ [] → s.buf.read 0 = some Config.stx) ∧
  (∀ size ∈ s.buf.frameSize, s.buf.fill < size)

/-- The nine codes of R231; 0 and 10 to 15 are never emitted. -/
abbrev Item.codeKnown : Item → Prop
  | .ins _ => True
  | .rms _ => True
  | .err code _ _ => 1 ≤ code.toNat ∧ code.toNat ≤ 9

/-- The input events of a stream of bytes with the timestamps that accompany them (R30, R147). -/
def byteEvents (stream : List (Byte × Timestamp)) : List Event := stream.map (fun e => .byte e.1 e.2)

/-- A list of instructions one after another. -/
def execAll : List Instr → State → Result
  | [], s => .next s
  | i :: is, s => andThen (exec i s) (execAll is)

/-- A list of output items appended in order (R34). -/
def State.emitAll (s : State) (items : List Item) : State := { s with out := s.out ++ items }

/-- Bytes that are not the start of a whole sub-record: one byte alone, or fewer than the length byte asks for (R182, R184). -/
def unfitting : List Byte → Bool
  | [] => false
  | [_] => true
  | _ :: l :: tail => tail.length < l.toNat

/-- The frame of R99 that passes every check and carries `payload`. -/
def acceptedFrame (status txn : Byte) (payload : List Byte) : Instr :=
  .genout status (txn :: 0 :: 0 :: payload) (frameChecksum status Config.pktGenout (txn :: 0 :: 0 :: payload)) Config.etx

/-- The byte at a frame offset; claims use it inside the frame only. -/
abbrev byteAt (f : List Byte) (a : Nat) : Byte := f.getD a 0

/-- The checks of ProcessFrame on the raw bytes of a candidate, by frame offset, as R160 prints them: the first that fails, with
what it records; none when the frame is accepted. The machine does not use it. -/
def frameVerdict (f : List Byte) : Option (ErrorKind × Byte × Byte) :=
  let len := (byteAt f 3).toNat
  if byteAt f 0 ≠ 0x02 then some (.badStart, byteAt f 0, 0)
  else if byteAt f 2 ≠ 0x40 then some (.unsupportedPacketType, byteAt f 2, 0)
  else if len < 3 then some (.lengthTooShort, byteAt f 3, 0)
  else if byteAt f 5 ≠ 0 ∨ byteAt f 6 ≠ 0 then some (.multiPageUnsupported, byteAt f 5, byteAt f 6)
  else if sum8 f 1 (3 + len) ≠ byteAt f (4 + len) then
    some (.checksumMismatch, sum8 f 1 (3 + len), byteAt f (4 + len))
  else if byteAt f (5 + len) ≠ 0x03 then some (.badEnd, byteAt f (5 + len), 0)
  else none

end Sys2Proof.Machine
end

