-- ==== Sys2Proof/Certificates/Slice0/Obligations.lean ====
section
/-!
DEFINITION. The statements for the provers.
-/

open Sys2Proof Sys2Proof.Machine

/-! ### Encoding -/

/-- R99, R81, R90: decoding the bytes of any well-formed instruction gives it back, with what follows it untouched. -/
def Obligations.DecodeInvertsEncode : Prop :=
  ∀ (i : Instr) (rest : List Byte), WellFormed i = true → decode i.format (encode i ++ rest) = .ok (i, rest)

/-- R80, R81, R90: whatever decodes is the encoding of a well-formed instruction of the format asked for. -/
def Obligations.EncodeInvertsDecode : Prop :=
  ∀ (fmt : Format) (bs rest : List Byte) (i : Instr), decode fmt bs = .ok (i, rest) →
    bs = encode i ++ rest ∧ WellFormed i = true ∧ i.format = fmt

/-- R95: the row that decodes is the first row of the opcode table, in file order, whose match and mask fit the bytes. -/
def Obligations.DecodeFollowsOpcodeTable : Prop :=
  ∀ (fmt : Format) (bs rest : List Byte) (i : Instr), decode fmt bs = .ok (i, rest) →
    tableMnemonic fmt bs = some i.mnemonic

/-- R82, R93: bytes decode exactly when they hold a whole unit, whose length the length byte alone tells; a frame also needs its
start marker, whose absence is named. -/
def Obligations.DecodeAnswersExactlyOnWholeUnits : Prop :=
  (∀ bs, (∃ r, decode .subRecord bs = .ok r) ↔ ∃ t l tail, bs = t :: l :: tail ∧ l.toNat ≤ tail.length) ∧
  (∀ bs, (∃ r, decode .outerFrame bs = .ok r) ↔
    ∃ status ty l tail, bs = 0x02 :: status :: ty :: l :: tail ∧ l.toNat + 2 ≤ tail.length) ∧
  (∀ bs x, decode .outerFrame bs = .error (.badStart x) ↔ x ≠ 0x02 ∧ ∃ a b c tail, bs = x :: a :: b :: c :: tail) ∧
  (∀ bs x, decode .subRecord bs ≠ .error (.badStart x))

/-- Words written out from R81 and R90 decode to the instruction they stand for. -/
def Obligations.WrittenOutWordsDecode : Prop :=
  decode .outerFrame [0x02, 0x00, 0x40, 0x03, 0x01, 0x00, 0x00, 0x44, 0x03] =
    .ok (.genout 0x00 [0x01, 0x00, 0x00] 0x44 0x03, []) ∧
  decode .outerFrame [0x02, 0xA5, 0x41, 0x01, 0x7E, 0x45, 0x03, 0xFF] = .ok (.pktOther 0xA5 0x41 [0x7E] 0x45 0x03, [0xFF]) ∧
  decode .subRecord [0x31, 0x02, 0xAA, 0xBB] = .ok (.ins [0xAA, 0xBB], []) ∧
  decode .subRecord [0x32, 0x00] = .ok (.insRms [], []) ∧
  decode .subRecord [0x33, 0x02, 0xAA, 0xBB, 0x01] = .ok (.rec51 [0xAA, 0xBB], [0x01]) ∧
  decode .subRecord [0x07, 0x01, 0xAA] = .ok (.recOther 0x07 [0xAA], [])

/-- R99: a frame built from a status byte, a transmission number and a payload of at most 252 bytes decodes to an instruction that
passes every frame check: its effect is the walk of exactly that payload. -/
def Obligations.BuiltFramesAreAccepted : Prop :=
  ∀ (status txn : Byte) (payload : List Byte) (s : State), payload.length ≤ 252 →
    decode .outerFrame (buildFrame status txn payload) = .ok (acceptedFrame status txn payload, []) ∧
    exec (acceptedFrame status txn payload) s = walk payload s

/-! ### Byte codec -/

/-- R120: `BE(s, a, n)` is the sum of the bytes times powers of 256, a value of `8n` bits; bit `8(n-1-k) + j` of it is bit `j` of
`s[a+k]`. -/
def Obligations.ReadsAreBigEndian : Prop :=
  ∀ (s : List Byte) (a n : Nat), a + n ≤ s.length →
    ∃ v, memRead s a n = some v ∧ v < 2 ^ (8 * n) ∧
      v = ((List.range n).map (fun k => (byteAt s (a + k)).toNat * 256 ^ (n - 1 - k))).sum ∧
      ∀ k j, k < n → j < 8 → v.testBit (8 * (n - 1 - k) + j) = (byteAt s (a + k)).getLsbD j

/-- R121 to R126, R128: each operation answers the value of its own width; a read of `2m` bytes is its two halves; the bytes of a
value, wherever they stand, read back as that value. -/
def Obligations.CodecWidthsHalvesAndInverse : Prop :=
  (∀ (s : List Byte) (a : Nat),
    (a + 1 ≤ s.length → ∃ v, beU8 s a = some v ∧ memRead s a 1 = some v.toNat) ∧
    (a + 2 ≤ s.length → ∃ v, beU16 s a = some v ∧ memRead s a 2 = some v.toNat) ∧
    (a + 4 ≤ s.length → ∃ v, beU32 s a = some v ∧ beF32 s a = some v ∧ memRead s a 4 = some v.toNat) ∧
    (a + 8 ≤ s.length → ∃ v, beF64 s a = some v ∧ memRead s a 8 = some v.toNat)) ∧
  (∀ (s : List Byte) (a m : Nat), a + 2 * m ≤ s.length →
    ∃ hi lo, memRead s a m = some hi ∧ memRead s (a + m) m = some lo ∧
      memRead s a (2 * m) = some (hi * 2 ^ (8 * m) + lo)) ∧
  (∀ (before after : List Byte) (n v : Nat), v < 256 ^ n →
    memRead (before ++ beBytes n v ++ after) before.length n = some v) ∧
  (∀ (s : List Byte) (a n v k : Nat), memRead s a n = some v → k < n →
    s[a + k]? = some (byteOfNat (v / 256 ^ (n - 1 - k))))

/-- R91: in a type 49 sub-record built from field values, with any bytes behind the layout, each field is read back from its
sub-record offset. -/
def Obligations.InsLayoutOffsets : Prop :=
  ∀ (x : InsSample) (extra : List Byte),
    let r := recordBytes 0x31 (insBody x ++ extra)
    (insBody x).length = 104 ∧
    memRead r 2 2 = some x.week.toNat ∧ memRead r 4 4 = some x.timeMs.toNat ∧
    memRead r 8 1 = some x.alignStatus.toNat ∧ memRead r 9 1 = some x.gnssStatus.toNat ∧
    memRead r 10 8 = some x.lat.toNat ∧ memRead r 18 8 = some x.lon.toNat ∧ memRead r 26 8 = some x.alt.toNat ∧
    memRead r 34 4 = some x.vN.toNat ∧ memRead r 38 4 = some x.vE.toNat ∧ memRead r 42 4 = some x.vD.toNat ∧
    memRead r 46 4 = some x.speed.toNat ∧
    memRead r 50 8 = some x.roll.toNat ∧ memRead r 58 8 = some x.pitch.toNat ∧
    memRead r 66 8 = some x.heading.toNat ∧ memRead r 74 8 = some x.track.toNat ∧
    memRead r 82 4 = some x.wx.toNat ∧ memRead r 86 4 = some x.wy.toNat ∧ memRead r 90 4 = some x.wz.toNat ∧
    memRead r 94 4 = some x.ax.toNat ∧ memRead r 98 4 = some x.ay.toNat ∧ memRead r 102 4 = some x.az.toNat

/-- R92: in a type 50 sub-record built from field values, with any bytes behind the layout, each field is read back from its
sub-record offset. -/
def Obligations.RmsLayoutOffsets : Prop :=
  ∀ (x : RmsSample) (extra : List Byte),
    let r := recordBytes 0x32 (rmsBody x ++ extra)
    (rmsBody x).length = 44 ∧
    memRead r 2 2 = some x.week.toNat ∧ memRead r 4 4 = some x.timeMs.toNat ∧
    memRead r 8 1 = some x.alignStatus.toNat ∧ memRead r 9 1 = some x.gnssStatus.toNat ∧
    memRead r 10 4 = some x.posRmsN.toNat ∧ memRead r 14 4 = some x.posRmsE.toNat ∧
    memRead r 18 4 = some x.posRmsD.toNat ∧ memRead r 22 4 = some x.velRmsN.toNat ∧
    memRead r 26 4 = some x.velRmsE.toNat ∧ memRead r 30 4 = some x.velRmsD.toNat ∧
    memRead r 34 4 = some x.rollRms.toNat ∧ memRead r 38 4 = some x.pitchRms.toNat ∧
    memRead r 42 4 = some x.headingRms.toNat

/-! ### Additive checksum -/

/-- R166: `Sum8(s, a, b)` is the sum of the bytes modulo 256, reduced once at the end or after every addition alike, and the order
of the additions does not matter. -/
def Obligations.Sum8IsSumModulo256 : Prop :=
  (∀ (s : List Byte) (a b : Nat), (sum8 s a b).toNat = ((slice s a b).map (fun x => x.toNat)).sum % 256) ∧
  (∀ xs ys : List Byte, xs.Perm ys → sumBytes xs = sumBytes ys)

/-- R170: any change of one summed byte changes the sum; two changes that cancel modulo 256 do not. -/
def Obligations.ChecksumDetectsSingleChanges : Prop :=
  (∀ (s : List Byte) (a b k : Nat) (x : Byte), a ≤ k → k ≤ b → k < s.length → byteAt s k ≠ x →
    sum8 (s.set k x) a b ≠ sum8 s a b) ∧
  (∀ (before between after : List Byte) (x y d : Byte),
    sumBytes (before ++ (x + d) :: between ++ (y - d) :: after) = sumBytes (before ++ x :: between ++ y :: after))

/-! ### Outer frames -/

/-- R162, R233: PKT_OTHER's own effect, for each of the 255 other packet types and whatever else the frame holds. -/
def Obligations.PktOtherReportsItsType : Prop :=
  ∀ (status ty : Byte) (region : List Byte) (checksum etx : Byte) (s : State), ty ≠ 0x40 → region.length ≤ 255 →
    decode .outerFrame (frameBytes status ty region checksum etx) = .ok (.pktOther status ty region checksum etx, []) ∧
    exec (.pktOther status ty region checksum etx) s = .next { s with out := s.out ++ [.err 2 ty 0] }

/-- R234 to R237: where GENOUT refuses the frame, and what each refusal records. `sum` is taken over frame offsets 1 to `3 + L`. -/
def Obligations.GenoutRefusals : Prop :=
  ∀ (status : Byte) (region : List Byte) (checksum etx : Byte) (s : State), region.length ≤ 255 →
    let i := Instr.genout status region checksum etx
    let sum := sum8 (encode i) 1 (3 + region.length)
    (region.length < 3 → exec i s = .next { s with out := s.out ++ [.err 3 (byteOfNat region.length) 0] }) ∧
    (∀ txn page maxPage payload, region = txn :: page :: maxPage :: payload →
      (page ≠ 0 ∨ maxPage ≠ 0 → exec i s = .next { s with out := s.out ++ [.err 4 page maxPage] }) ∧
      (page = 0 ∧ maxPage = 0 → sum ≠ checksum → exec i s = .next { s with out := s.out ++ [.err 5 sum checksum] }) ∧
      (page = 0 ∧ maxPage = 0 → sum = checksum → etx ≠ 0x03 →
        exec i s = .next { s with out := s.out ++ [.err 6 etx 0] }))

/-- R160: on any complete candidate the machine does what the printed checks do on its raw bytes: the first that fails reports
alone, else the payload at frame offsets 7 to `3 + L` is walked. -/
def Obligations.FrameChecksInPrintedOrder : Prop :=
  ∀ (f : List Byte) (s : State), f.length = (byteAt f 3).toNat + 6 →
    runFrame f s =
      match frameVerdict f with
      | some (e, aux0, aux1) => .next { s with out := s.out ++ [.err e.code aux0 aux1] }
      | none => walk (slice f 7 (3 + (byteAt f 3).toNat)) s

/-- R188, R168: an accepted frame whose payload is N sub-records runs exactly those N, in order, from the same state and with
nothing else; N items are appended and none is TruncatedSubRecord. -/
def Obligations.GenoutRunsEveryRecord : Prop :=
  ∀ (status txn : Byte) (records : List Instr) (s : State), (∀ i ∈ records, i.isRecord = true) →
    ∃ items, items.length = records.length ∧ (∀ a b, Item.err 7 a b ∉ items) ∧
      execAll records s = .next { s with out := s.out ++ items } ∧
      exec (acceptedFrame status txn (records.flatMap encode)) s = .next { s with out := s.out ++ items }

/-- R182, R184, R187, R238: when bytes that are no whole sub-record follow the N sub-records of an accepted frame, the N items stay
and one TruncatedSubRecord with the offset and the number of those bytes ends the frame. -/
def Obligations.GenoutTruncation : Prop :=
  ∀ (status txn : Byte) (records : List Instr) (tail : List Byte) (s : State), (∀ i ∈ records, i.isRecord = true) →
    unfitting tail = true → (records.flatMap encode ++ tail).length ≤ 252 →
    ∃ (items : List Item) (pos rem : Byte), items.length = records.length ∧ (∀ a b, Item.err 7 a b ∉ items) ∧
      pos.toNat = (records.flatMap encode).length ∧ rem.toNat = tail.length ∧
      execAll records s = .next { s with out := s.out ++ items } ∧
      exec (acceptedFrame status txn (records.flatMap encode ++ tail)) s =
        .next { s with out := s.out ++ items ++ [.err 7 pos rem] }

/-- R93, R186: every payload is whole sub-records followed by nothing or by bytes that are no whole sub-record, in at most half as
many sub-records as it has bytes. -/
def Obligations.EveryPayloadSplits : Prop :=
  ∀ payload : List Byte, ∃ (records : List Instr) (tail : List Byte), (∀ i ∈ records, i.isRecord = true) ∧
    payload = records.flatMap encode ++ tail ∧ (tail = [] ∨ unfitting tail = true) ∧ 2 * records.length ≤ payload.length

/-- R247, R169: a frame gives exactly one error of codes 1 to 6, or at most 126 items, of which only the last may be a
TruncatedSubRecord and the others are samples or errors 8 and 9. -/
def Obligations.FrameItemsShape : Prop :=
  ∀ (i : Instr) (s : State), i.isFrame = true →
    ∃ items, exec i s = .next { s with out := s.out ++ items } ∧
      ((∃ code a b, items = [.err code a b] ∧ 1 ≤ code.toNat ∧ code.toNat ≤ 6) ∨
       (∃ recs last, items = recs ++ last ∧ items.length ≤ 126 ∧ (last = [] ∨ ∃ a b, last = [.err 7 a b]) ∧
         ∀ item ∈ recs, item.channel ≠ .err ∨ ∃ a b, item = .err 8 a b ∨ item = .err 9 a b))

/-- R248, R189: the item number `k` of a GENOUT is a sample only if the frame passed all checks, `k` whole sub-records stand in the
payload before it, and a sub-record of the sample's type that fits and has the minimum body stands right behind them; the fields
are that body's bytes. So a byte 0x31 or 0x32 inside a body never gives a sample. -/
def Obligations.SamplesComeFromGoodRecords : Prop :=
  ∀ (status : Byte) (region : List Byte) (checksum etx : Byte) (s t : State),
    exec (.genout status region checksum etx) s = .next t →
    ∃ items : List Item, t.out = s.out ++ items ∧
      (∀ (k : Nat) x, items[k]? = some (.ins x) →
        ∃ (txn : Byte) (records : List Instr) (l : Byte) (tail : List Byte),
        region = txn :: 0 :: 0 :: (records.flatMap encode ++ 0x31 :: l :: tail) ∧
        checksum = frameChecksum status 0x40 region ∧ etx = 0x03 ∧
        (∀ i ∈ records, i.isRecord = true) ∧ records.length = k ∧ 104 ≤ l.toNat ∧ l.toNat ≤ tail.length ∧
        insBody x = tail.take 104 ∧ x.captureTs = s.now) ∧
      (∀ (k : Nat) x, items[k]? = some (.rms x) →
        ∃ (txn : Byte) (records : List Instr) (l : Byte) (tail : List Byte),
        region = txn :: 0 :: 0 :: (records.flatMap encode ++ 0x32 :: l :: tail) ∧
        checksum = frameChecksum status 0x40 region ∧ etx = 0x03 ∧
        (∀ i ∈ records, i.isRecord = true) ∧ records.length = k ∧ 44 ≤ l.toNat ∧ l.toNat ≤ tail.length ∧
        rmsBody x = tail.take 44 ∧ x.captureTs = s.now)

/-! ### Sub-records -/

/-- R201, R207: INS with a body of 104 bytes or more appends one INS item whose wire fields are the body's first 104 bytes, laid out
as R91 says, and whose timestamp is `now`; bytes behind them do not matter. -/
def Obligations.InsDecodes : Prop :=
  ∀ (body : List Byte) (s : State), 104 ≤ body.length →
    ∃ x, insBody x = body.take 104 ∧ x.captureTs = s.now ∧
      exec (.ins body) s = .next { s with out := s.out ++ [.ins x] }

/-- R200: INS with a shorter body reports RecordTooShort and emits no sample. -/
def Obligations.InsTooShort : Prop :=
  ∀ (body : List Byte) (s : State), body.length < 104 →
    exec (.ins body) s = .next { s with out := s.out ++ [.err 9 0x31 (byteOfNat body.length)] }

/-- R203, R207: INS_RMS with a body of 44 bytes or more appends one RMS item whose wire fields are the body's first 44 bytes, laid
out as R92 says, and whose timestamp is `now`; bytes behind them do not matter. -/
def Obligations.InsRmsDecodes : Prop :=
  ∀ (body : List Byte) (s : State), 44 ≤ body.length →
    ∃ x, rmsBody x = body.take 44 ∧ x.captureTs = s.now ∧
      exec (.insRms body) s = .next { s with out := s.out ++ [.rms x] }

/-- R202: INS_RMS with a shorter body reports RecordTooShort and emits no sample. -/
def Obligations.InsRmsTooShort : Prop :=
  ∀ (body : List Byte) (s : State), body.length < 44 →
    exec (.insRms body) s = .next { s with out := s.out ++ [.err 9 0x32 (byteOfNat body.length)] }

/-- R205: REC51's own effect, for every body. -/
def Obligations.Rec51ReportsUnimplemented : Prop :=
  ∀ (body : List Byte) (s : State),
    exec (.rec51 body) s = .next { s with out := s.out ++ [.err 8 0x33 (byteOfNat body.length)] }

/-- R206: REC_OTHER's own effect, for every type and body. -/
def Obligations.RecOtherReportsUnknown : Prop :=
  ∀ (t : Byte) (body : List Byte) (s : State),
    exec (.recOther t body) s = .next { s with out := s.out ++ [.err 8 t (byteOfNat body.length)] }

/-- R185, R208: the demultiplexer runs the instruction that the sub-record's bytes decode to. -/
def Obligations.DispatchRunsDecodedRecord : Prop :=
  ∀ (t : Byte) (body rest : List Byte) (i : Instr) (s : State), body.length ≤ 255 →
    decode .subRecord (recordBytes t body ++ rest) = .ok (i, rest) → dispatch t body s = exec i s

/-- R185: every sub-record appends exactly one item, from any state. -/
def Obligations.RecordsGiveOneItem : Prop :=
  ∀ (i : Instr) (s : State), i.format = .subRecord →
    ∃ item, exec i s = .next { s with out := s.out ++ [item] }

/-! ### Every instruction -/

/-- R244, R58, R62, R241: every instruction completes from every state, and all it does is append items: the buffer, every byte of
it, the timestamp input and the pending events are as before. -/
def Obligations.ExecOnlyAppendsItems : Prop :=
  ∀ (i : Instr) (s : State), ∃ items t, exec i s = .next t ∧ t.out = s.out ++ items ∧
    (∀ a, t.buf.read a = s.buf.read a) ∧ t.buf = s.buf ∧ t.now = s.now ∧ t.input = s.input

/-- R185, R209: what an instruction appends depends on the instruction and `now` and on nothing else, not on earlier frames, the
buffer or what is pending. -/
def Obligations.ExecDependsOnNowOnly : Prop :=
  ∀ (i : Instr) (s s' : State), s.now = s'.now →
    ∃ items, exec i s = .next { s with out := s.out ++ items } ∧ exec i s' = .next { s' with out := s'.out ++ items }

/-- R231, R241, R230: raising an error appends one ERR item with the error's code and does nothing else; the codes are 1 to 9 in the
table's order, and only 8 and 9 are record errors. -/
def Obligations.RaiseAppendsOneItem : Prop :=
  (∀ (s : State) (e : ErrorKind) (a b : Byte), s.raise e a b = { s with out := s.out ++ [.err e.code a b] }) ∧
  [ErrorKind.badStart, .unsupportedPacketType, .lengthTooShort, .multiPageUnsupported, .checksumMismatch, .badEnd,
    .truncatedSubRecord, .unknownOrUnimplementedRecordType, .recordTooShort].map (fun e => e.code.toNat) =
    [1, 2, 3, 4, 5, 6, 7, 8, 9] ∧
  (∀ e : ErrorKind, e.errorClass = .recordError ↔ 8 ≤ e.code.toNat)

/-! ### The synchronizer's steps -/

/-- R141: in HUNT the start marker is kept at address 0 and any other byte is dropped; nothing is reported. -/
def Obligations.HuntByte : Prop :=
  ∀ (s : State) (b : Byte) (now : Timestamp) (rest : List Event), s.buf = [] → s.input = .byte b now :: rest →
    step s = .next { buf := if b = 0x02 then [(0, b)] else [], now := now, input := rest, out := s.out }

/-- R142: in COLLECT a byte that does not complete the candidate is stored at address `|buf|`, whatever its value, and nothing is
reported. -/
def Obligations.CollectByte : Prop :=
  ∀ (s : State) (b : Byte) (now : Timestamp) (rest : List Event), s.buf ≠ [] → s.buf.fill < 261 →
    s.input = .byte b now :: rest →
    (∀ len, (s.buf ++ [(s.buf.fill, b)] : Memory).read 3 = some len → s.buf.fill + 1 ≠ len.toNat + 6) →
    step s = .next { buf := s.buf ++ [(s.buf.fill, b)], now := now, input := rest, out := s.out }

/-- R140, R144: when the held bytes and the arriving one are the encoding of a well-formed frame instruction, the step is `exec` of
that instruction at the state that holds the whole frame, and then the buffer is emptied. -/
def Obligations.StepRunsDecodedFrame : Prop :=
  ∀ (i : Instr) (s : State) (b : Byte) (now : Timestamp) (rest : List Event), i.isFrame = true → s.buf.wf = true →
    s.input = .byte b now :: rest → s.buf.bytes ++ [b] = encode i →
    ∃ t, exec i { buf := Memory.ofBytes (encode i), now := now, input := rest, out := s.out } = .next t ∧
      step s = .next { t with buf := [] }

/-- R145: the step that completes a candidate leaves the buffer empty whatever became of the frame, and takes no other event. -/
def Obligations.CompletionEmptiesBuffer : Prop :=
  ∀ (s : State) (b len : Byte) (now : Timestamp) (rest : List Event), s.Inv → s.buf ≠ [] → s.input = .byte b now :: rest →
    (s.buf.bytes ++ [b])[3]? = some len → s.buf.fill + 1 = len.toNat + 6 →
    ∃ items, step s = .next { buf := [], now := now, input := rest, out := s.out ++ items }

/-- R161, R232: a candidate whose first byte is not the start marker would be refused with code 1 and that byte, before any other
check. -/
def Obligations.BadStartComesFirst : Prop :=
  ∀ (f : List Byte) (s : State), 4 ≤ f.length → byteAt f 0 ≠ 0x02 →
    runFrame f s = .next { s with out := s.out ++ [.err 1 (byteAt f 0) 0] }

/-- R231, R232: no step from a state that meets R21 emits code 0, code 1 (BadStart "cannot occur in this block") or a code
above 9. -/
def Obligations.EmittedCodes : Prop :=
  ∀ s t : State, s.Inv → step s = .next t →
    ∃ items, t.out = s.out ++ items ∧ ∀ code a b, Item.err code a b ∈ items → 2 ≤ code.toNat ∧ code.toNat ≤ 9

/-- R270: `Reset` empties the buffer, reports nothing, changes nothing else and leaves the block in HUNT. The events still pending and
the items already handed out, the model's own fields (log entries 1 and 2), stay. -/
def Obligations.ResetEvent : Prop :=
  ∀ (s : State) (rest : List Event), s.input = .reset :: rest →
    ∃ t, step s = .next t ∧ t = { s with buf := [], input := rest } ∧ t.mode = .hunt

/-- R257: with no event the block keeps its state. -/
def Obligations.IdleKeepsState : Prop :=
  ∀ s : State, s.input = [] → step s = .next s

/-- R21: every step keeps the buffer's invariants, from every state that meets them. -/
def Obligations.StepKeepsBufferInvariant : Prop :=
  ∀ s t : State, s.Inv → step s = .next t → t.Inv

/-- R244, R50: from every state that meets R21 every input event has a step; the buffer never overflows. -/
def Obligations.StepNeverStops : Prop :=
  ∀ s : State, s.Inv → ∃ t, step s = .next t

/-- R36: the state after reset holds an empty buffer, is in HUNT, has emitted nothing, and meets R21. -/
def Obligations.ResetStateMeetsInvariant : Prop :=
  State.reset.Inv ∧ State.reset.buf = [] ∧ State.reset.mode = .hunt ∧ State.reset.out = []

/-- R30 to R32, for every TS_WIDTH: what a step emits carries a timestamp of TS_WIDTH bits, which is the one of the byte it takes;
and every value of TS_WIDTH bits on the timestamp input comes out of both decoders unchanged. -/
def Obligations.TimestampsKeepWidth : Prop :=
  (∀ s t : State, step s = .next t → ∃ items, t.out = s.out ++ items ∧
    ∀ item ∈ items, ∀ ts ∈ item.captureTs, ts.toNat < 2 ^ Config.tsWidth ∧ ∃ b, s.input.head? = some (.byte b ts)) ∧
  (∀ (v : Nat) (body : List Byte) (s : State), v < 2 ^ Config.tsWidth → s.now = BitVec.ofNat Config.tsWidth v →
    (104 ≤ body.length → ∃ x, exec (.ins body) s = .next { s with out := s.out ++ [.ins x] } ∧ x.captureTs.toNat = v) ∧
    (44 ≤ body.length → ∃ x, exec (.insRms body) s = .next { s with out := s.out ++ [.rms x] } ∧ x.captureTs.toNat = v))

/-- R204, R284: every sample that a step emits carries the `now` of the byte that completes the frame, and the values on the
timestamp input before it are ignored. -/
def Obligations.SamplesCarryNow : Prop :=
  ∀ (s t : State) (b : Byte) (now earlier : Timestamp) (rest : List Event), s.input = .byte b now :: rest →
    step s = .next t →
    step { s with now := earlier } = .next t ∧
    ∃ items, t.out = s.out ++ items ∧ ∀ item ∈ items, ∀ ts ∈ item.captureTs, ts = now

/-- R20, R35, R243: what has been emitted before is not read: a step appends the same items and leaves the same state whatever the
record of earlier outputs. -/
def Obligations.OutputHistoryIsNotRead : Prop :=
  ∀ (s t : State) (history : List Item), step s = .next t →
    ∃ items, t.out = s.out ++ items ∧ step { s with out := history } = .next { t with out := history ++ items }

/-- R10, R242: a step takes exactly the oldest pending event, and what was handed out before stays, in front. -/
def Obligations.StepTakesOneEvent : Prop :=
  ∀ s t : State, step s = .next t → t.input = s.input.tail ∧ s.out <+: t.out

/-- R144, R147, R148: a frame that arrives byte by byte at a block in HUNT runs as its instruction, once, at its last byte and with
the timestamp of that byte; afterwards the block is in HUNT. -/
def Obligations.WholeFrameByteByByte : Prop :=
  ∀ (i : Instr) (s : State) (stream : List (Byte × Timestamp)) (last : Byte × Timestamp) (rest : List Event),
    i.isFrame = true → s.buf = [] → (stream ++ [last]).map (fun e => e.1) = encode i →
    s.input = byteEvents (stream ++ [last]) ++ rest →
    ∃ items, exec i { s with now := last.2 } = .next { s with now := last.2, out := s.out ++ items } ∧
      (Sys2Proof.core.run (stream.length + 1) s : Result) =
        .next { buf := [], now := last.2, input := rest, out := s.out ++ items }

/-- R141: any number of bytes that are not the start marker are dropped in HUNT, and nothing is reported. -/
def Obligations.NoiseIsDiscarded : Prop :=
  ∀ (s : State) (stream : List (Byte × Timestamp)) (rest : List Event), s.buf = [] →
    (∀ e ∈ stream, e.1 ≠ 0x02) → s.input = byteEvents stream ++ rest →
    ∃ now, (Sys2Proof.core.run stream.length s : Result) = .next { s with now := now, input := rest }

/-! ### The frame buffer -/

/-- R59, R50: the append stores the byte at address `|buf|`, leaves every other address alone and raises the fill count by one,
while the buffer has such an address. A full buffer has none, and that the append then answers no value is the model's choice (log
entry 5). -/
def Obligations.AppendStoresOneByte : Prop :=
  ∀ (m : Memory) (b : Byte), m.wf = true →
    (m.fill < 261 → ∃ m', m.append b = some m' ∧ m'.fill = m.fill + 1 ∧ m'.read m.fill = some b ∧
      ∀ a, a ≠ m.fill → m'.read a = m.read a) ∧
    (m.fill = 261 → m.append b = none)

/-- R59: a step leaves the buffer, appends the arriving byte at address `|buf|`, or empties the whole buffer; no byte held is ever
overwritten. -/
def Obligations.StepNeverOverwrites : Prop :=
  ∀ s t : State, step s = .next t →
    (t.buf = [] ∨ t.buf = s.buf ∨
      ∃ b now, s.input.head? = some (.byte b now) ∧ t.buf = s.buf ++ [(s.buf.fill, b)]) ∧
    (t.buf = [] ∨ ∀ a b, s.buf.read a = some b → t.buf.read a = some b)

/-- The model's choice (log entry 5), on states that no run reaches: a byte that arrives when all 261 addresses are taken stops the
machine by name. -/
def Obligations.OverflowStopsByName : Prop :=
  ∀ (s : State) (b : Byte) (now : Timestamp) (rest : List Event), 261 ≤ s.buf.fill → s.input = .byte b now :: rest →
    step s = .fault (.noSuchAddress s.buf.fill)

/-- The model's choice (log entries 8 and 9): `withFetchWord` places an instruction of the opcode table so that the very next step
runs it and nothing else. A sub-record longer than a payload can hold (body above 250 bytes, R184) cannot be placed. -/
def Obligations.FetchWordRunsInstruction : Prop :=
  ∀ (s : State) (nbits w : Nat) (i : Instr), decodeTableWord nbits w = some i →
    (i.format = .outerFrame ∨ i.counted.length ≤ 250) →
    ∃ items, exec i s = .next { s with out := s.out ++ items } ∧
      step (s.withFetchWord nbits w) = .next { s with buf := [], out := s.out ++ items }
end

