-- ==== Sys2Proof/Laws/Checksum.lean ====
section
/-!
SUPPORT. The additive checksum (42_frame_validate.md R166).
-/

namespace Sys2Proof.Machine

theorem foldl_sum (acc : Byte) (bs : List Byte) :
    bs.foldl (fun sum b => sum + b) acc = acc + sumBytes bs := by
  induction bs generalizing acc with
  | nil => simp [sumBytes]
  | cons b bs ih => 
    rw [List.foldl_cons, ih (acc + b), show sumBytes (b :: bs) = 0 + b + sumBytes bs from ih (0 + b)]
    simp [BitVec.add_assoc]

@[simp] theorem sumBytes_nil : sumBytes [] = 0 := rfl

@[simp] theorem sumBytes_cons (b : Byte) (bs : List Byte) : sumBytes (b :: bs) = b + sumBytes bs := by
  rw [show sumBytes (b :: bs) = 0 + b + sumBytes bs from foldl_sum (0 + b) bs]
  simp

@[simp] theorem sumBytes_append (xs ys : List Byte) : sumBytes (xs ++ ys) = sumBytes xs + sumBytes ys := by
  induction xs with
  | nil => simp
  | cons x xs ih => simp [ih, BitVec.add_assoc]

/-- `s[a..b]` has `b - a + 1` bytes when it lies inside (R7). -/
theorem slice_length (s : List Byte) (a b : Nat) (h : b < s.length) : (slice s a b).length = b + 1 - a := by
  simp [slice]; omega

/-- The checksummed region is frame offsets 1 to `3 + L` (R51). -/
theorem frameChecksum_eq (status packetType : Byte) (region : List Byte) :
    frameChecksum status packetType region =
      status + (packetType + (byteOfNat region.length + sumBytes region)) := by
  simp [frameChecksum, checksummedRegion]

end Sys2Proof.Machine
end

