-- ==== Sys2Proof/Laws/Codec.lean ====
section
/-!
SUPPORT. The byte codec: big-endian values and their bytes (40_byte_codec.md R120, R128).
-/

namespace Sys2Proof.Machine

@[simp] theorem beNat_nil : beNat [] = 0 := rfl

theorem foldl_be (acc : Nat) (bs : List Byte) :
    bs.foldl (fun acc b => acc * 256 + b.toNat) acc = acc * 256 ^ bs.length + beNat bs := by
  induction bs generalizing acc with
  | nil => simp
  | cons b bs ih =>
    simp only [List.foldl_cons, List.length_cons, beNat]
    rw [ih, ih (0 * 256 + b.toNat)]
    ring

/-- The first byte is the most significant (R94). -/
theorem beNat_cons (b : Byte) (bs : List Byte) : beNat (b :: bs) = b.toNat * 256 ^ bs.length + beNat bs := by
  rw [beNat, List.foldl_cons, foldl_be]
  simp

theorem beNat_append (xs ys : List Byte) : beNat (xs ++ ys) = beNat xs * 256 ^ ys.length + beNat ys := by
  rw [beNat, List.foldl_append, foldl_be]
  rfl

theorem beNat_lt (bs : List Byte) : beNat bs < 256 ^ bs.length := by
  induction bs with
  | nil => simp
  | cons b bs ih =>
    rw [beNat_cons, List.length_cons, Nat.pow_succ]
    have := b.isLt
    nlinarith

@[simp] theorem beBytes_length (n v : Nat) : (beBytes n v).length = n := by
  induction n generalizing v with
  | zero => rfl
  | succ n ih => simp [beBytes, ih]

/-- Bytes above the `n` kept do not show. -/
theorem beBytes_add_mul (n v k : Nat) : beBytes n (k * 256 ^ n + v) = beBytes n v := by
  induction n generalizing k with
  | zero => rfl
  | succ n ih =>
    have hp : 0 < 256 ^ n := by positivity
    have h1 : k * 256 ^ (n + 1) + v = (k * 256) * 256 ^ n + v := by ring
    simp only [beBytes, List.cons.injEq]
    constructor
    · rw [h1, Nat.add_comm, Nat.add_mul_div_right _ _ hp]
      apply BitVec.eq_of_toNat_eq
      simp [BitVec.toNat_ofNat]
    · rw [h1, ih]

/-- The bytes of the value of `bs` are `bs` (R128). -/
theorem beBytes_beNat (bs : List Byte) : beBytes bs.length (beNat bs) = bs := by
  induction bs with
  | nil => rfl
  | cons b bs ih =>
    have hp : 0 < 256 ^ bs.length := by positivity
    simp only [List.length_cons, beBytes, List.cons.injEq]
    rw [beNat_cons]
    constructor
    · rw [Nat.add_comm, Nat.add_mul_div_right _ _ hp, Nat.div_eq_of_lt (beNat_lt bs), Nat.zero_add]
      simp
    · rw [beBytes_add_mul, ih]

/-- The value of the `n` bytes of `v` is `v` modulo `256^n`. -/
theorem beNat_beBytes (n v : Nat) : beNat (beBytes n v) = v % 256 ^ n := by
  induction n generalizing v with
  | zero => simp [beBytes, Nat.mod_one]
  | succ n ih =>
    rw [beBytes, beNat_cons, beBytes_length, ih, Nat.pow_succ, Nat.mod_mul]
    simp only [BitVec.toNat_ofNat]
    ring

/-- What a read can do: it answers when its bytes lie inside, and then with their value. -/
theorem memRead_eq_some {s : List Byte} {a n v : Nat} :
    memRead s a n = some v ↔ a + n ≤ s.length ∧ beNat ((s.drop a).take n) = v := by
  unfold memRead
  split <;> simp_all

/-- A read inside a part of the bytes. -/
theorem memRead_append_left (xs ys : List Byte) (a n : Nat) (h : a + n ≤ xs.length) :
    memRead (xs ++ ys) a n = memRead xs a n := by
  have h1 : a + n ≤ (xs ++ ys).length := by simp; omega
  unfold memRead
  rw [if_pos h, if_pos h1, List.drop_append_of_le_length (by omega), List.take_append_of_le_length (by simp; omega)]

theorem memRead_append_right (xs ys : List Byte) (a n : Nat) (h : xs.length ≤ a) :
    memRead (xs ++ ys) a n = memRead ys (a - xs.length) n := by
  obtain ⟨k, rfl⟩ := Nat.exists_eq_add_of_le h
  unfold memRead
  simp only [List.length_append, Nat.add_sub_cancel_left, Nat.add_assoc, Nat.add_le_add_iff_left]
  rw [List.drop_append, List.drop_eq_nil_of_le (by omega), Nat.add_sub_cancel_left, List.nil_append]

end Sys2Proof.Machine
end

