-- ==== Sys2Proof/Laws/Decode.lean ====
section
/-!
SUPPORT. What the selection by type byte and the encoder can answer (30_encoding.md R83, R95).
-/

namespace Sys2Proof

theorem selectRecord_format (t : Byte) (body : List Byte) : (selectRecord t body).format = .subRecord := by
  unfold selectRecord
  split_ifs <;> rfl

theorem selectRecord_counted (t : Byte) (body : List Byte) : (selectRecord t body).counted = body := by
  unfold selectRecord
  split_ifs <;> rfl

/-- The selected row stands for the type byte it was selected by. -/
theorem selectRecord_wellFormed (t : Byte) (body : List Byte) (h : body.length ≤ 255) :
    WellFormed (selectRecord t body) = true := by
  unfold selectRecord
  split_ifs with h1 h2 h3 <;> simp_all [WellFormed, Instr.counted, Instr.typeFits]

theorem encode_selectRecord (t : Byte) (body : List Byte) : encode (selectRecord t body) = recordBytes t body := by
  unfold selectRecord
  split_ifs with h1 h2 h3 <;> simp_all [encode]

theorem selectFrame_format (st ty : Byte) (region : List Byte) (cs ex : Byte) :
    (selectFrame st ty region cs ex).format = .outerFrame := by
  unfold selectFrame
  split_ifs <;> rfl

theorem selectFrame_counted (st ty : Byte) (region : List Byte) (cs ex : Byte) :
    (selectFrame st ty region cs ex).counted = region := by
  unfold selectFrame
  split_ifs <;> rfl

theorem selectFrame_wellFormed (st ty : Byte) (region : List Byte) (cs ex : Byte) (h : region.length ≤ 255) :
    WellFormed (selectFrame st ty region cs ex) = true := by
  unfold selectFrame
  split_ifs with h1 <;> simp_all [WellFormed, Instr.counted, Instr.typeFits]

theorem encode_selectFrame (st ty : Byte) (region : List Byte) (cs ex : Byte) :
    encode (selectFrame st ty region cs ex) = frameBytes st ty region cs ex := by
  unfold selectFrame
  split_ifs with h1 <;> simp_all [encode]

/-- A length byte holds every length up to 255. -/
theorem byteOfNat_toNat (n : Nat) (h : n ≤ 255) : (byteOfNat n).toNat = n := by
  simp [BitVec.toNat_ofNat]; omega

end Sys2Proof
end

