-- ==== Sys2Proof/Laws/State.lean ====
section
/-!
SUPPORT. One lemma per field per update of the state, and how the updates meet.
-/

namespace Sys2Proof.Machine

@[simp] theorem State.emit_buf (s : State) (item : Item) : (s.emit item).buf = s.buf := rfl
@[simp] theorem State.emit_now (s : State) (item : Item) : (s.emit item).now = s.now := rfl
@[simp] theorem State.emit_input (s : State) (item : Item) : (s.emit item).input = s.input := rfl
@[simp] theorem State.emit_out (s : State) (item : Item) : (s.emit item).out = s.out ++ [item] := rfl

@[simp] theorem State.emitAll_buf (s : State) (items : List Item) : (s.emitAll items).buf = s.buf := rfl
@[simp] theorem State.emitAll_now (s : State) (items : List Item) : (s.emitAll items).now = s.now := rfl
@[simp] theorem State.emitAll_input (s : State) (items : List Item) : (s.emitAll items).input = s.input := rfl
@[simp] theorem State.emitAll_out (s : State) (items : List Item) : (s.emitAll items).out = s.out ++ items := rfl

@[simp] theorem State.raise_buf (s : State) (e : ErrorKind) (aux0 aux1 : Byte) : (s.raise e aux0 aux1).buf = s.buf := rfl
@[simp] theorem State.raise_now (s : State) (e : ErrorKind) (aux0 aux1 : Byte) : (s.raise e aux0 aux1).now = s.now := rfl
@[simp] theorem State.raise_input (s : State) (e : ErrorKind) (aux0 aux1 : Byte) : (s.raise e aux0 aux1).input = s.input := rfl
@[simp] theorem State.raise_out (s : State) (e : ErrorKind) (aux0 aux1 : Byte) : (s.raise e aux0 aux1).out = s.out ++ [e.item aux0 aux1] := rfl

@[simp] theorem State.setBuf_buf (s : State) (m : Memory) : (s.setBuf m).buf = m := rfl
@[simp] theorem State.setBuf_now (s : State) (m : Memory) : (s.setBuf m).now = s.now := rfl
@[simp] theorem State.setBuf_input (s : State) (m : Memory) : (s.setBuf m).input = s.input := rfl
@[simp] theorem State.setBuf_out (s : State) (m : Memory) : (s.setBuf m).out = s.out := rfl

@[simp] theorem State.clearBuf_buf (s : State) : (s.clearBuf).buf = [] := rfl
@[simp] theorem State.clearBuf_now (s : State) : (s.clearBuf).now = s.now := rfl
@[simp] theorem State.clearBuf_input (s : State) : (s.clearBuf).input = s.input := rfl
@[simp] theorem State.clearBuf_out (s : State) : (s.clearBuf).out = s.out := rfl

@[simp] theorem State.setNow_buf (s : State) (now : Timestamp) : (s.setNow now).buf = s.buf := rfl
@[simp] theorem State.setNow_now (s : State) (now : Timestamp) : (s.setNow now).now = now := rfl
@[simp] theorem State.setNow_input (s : State) (now : Timestamp) : (s.setNow now).input = s.input := rfl
@[simp] theorem State.setNow_out (s : State) (now : Timestamp) : (s.setNow now).out = s.out := rfl

@[simp] theorem State.setInput_buf (s : State) (events : List Event) : (s.setInput events).buf = s.buf := rfl
@[simp] theorem State.setInput_now (s : State) (events : List Event) : (s.setInput events).now = s.now := rfl
@[simp] theorem State.setInput_input (s : State) (events : List Event) : (s.setInput events).input = events := rfl
@[simp] theorem State.setInput_out (s : State) (events : List Event) : (s.setInput events).out = s.out := rfl

/-- Raising an error is emitting its ERR item (R241). -/
theorem State.raise_eq_emit (s : State) (e : ErrorKind) (aux0 aux1 : Byte) :
    s.raise e aux0 aux1 = s.emit (e.item aux0 aux1) := rfl

theorem State.emit_eq_emitAll (s : State) (item : Item) : s.emit item = s.emitAll [item] := rfl

theorem State.raise_eq_emitAll (s : State) (e : ErrorKind) (aux0 aux1 : Byte) :
    s.raise e aux0 aux1 = s.emitAll [.err e.code aux0 aux1] := rfl

@[simp] theorem State.emitAll_nil (s : State) : s.emitAll [] = s := by
  simp [State.emitAll]

@[simp] theorem State.emitAll_emitAll (s : State) (xs ys : List Item) :
    (s.emitAll xs).emitAll ys = s.emitAll (xs ++ ys) := by
  simp [State.emitAll]

@[simp] theorem andThen_next (s : State) (f : State → Result) : andThen (.next s) f = f s := rfl

@[simp] theorem andThen_fault (e : Fault) (f : State → Result) : andThen (.fault e) f = .fault e := rfl

@[simp] theorem andThen_refused (e : Refusal) (f : State → Result) : andThen (.refused e) f = .refused e := rfl

/-- What `andThen` can do: it answers a next state exactly when both parts do. -/
theorem andThen_eq_next {r : Result} {f : State → Result} {t : State} :
    andThen r f = .next t ↔ ∃ s, r = .next s ∧ f s = .next t := by
  cases r <;> simp [andThen]

/-- `andThen` is associative. -/
theorem andThen_assoc (r : Result) (f g : State → Result) :
    andThen (andThen r f) g = andThen r (fun s => andThen (f s) g) := by
  cases r <;> rfl

/-- A list of instructions runs in two parts. -/
theorem execAll_append (xs ys : List Instr) (s : State) :
    execAll (xs ++ ys) s = andThen (execAll xs s) (execAll ys) := by
  induction xs generalizing s with
  | nil => rfl
  | cons x xs ih =>
    simp only [List.cons_append, execAll, andThen_assoc]
    exact congrArg (andThen (exec x s)) (funext ih)

end Sys2Proof.Machine
end

