-- ==== Sys2Proof/Laws/Memory.lean ====
section
/-!
SUPPORT. The frame buffer: every memory operation keeps the canonical form, and reads after writes (20_memory.md R50, R59).
-/

namespace Sys2Proof.Machine

@[simp] theorem cellsFrom_length (a : Nat) (bs : List Byte) : (cellsFrom a bs).length = bs.length := by
  induction bs generalizing a with
  | nil => rfl
  | cons b bs ih => simp [cellsFrom, ih]

@[simp] theorem cellsFrom_bytes (a : Nat) (bs : List Byte) : (cellsFrom a bs).map (·.2) = bs := by
  induction bs generalizing a with
  | nil => rfl
  | cons b bs ih => simp [cellsFrom, ih]

@[simp] theorem cellsFrom_addresses (a : Nat) (bs : List Byte) :
    (cellsFrom a bs).map (·.1) = List.range' a bs.length := by
  induction bs generalizing a with
  | nil => rfl
  | cons b bs ih => simp [cellsFrom, ih, List.range'_succ]

theorem cellsFrom_append (a : Nat) (xs ys : List Byte) :
    cellsFrom a (xs ++ ys) = cellsFrom a xs ++ cellsFrom (a + xs.length) ys := by
  induction xs generalizing a with
  | nil => rfl
  | cons x xs ih => simp [cellsFrom, ih, Nat.add_assoc, Nat.add_comm]

/-- Cells with rising addresses are the cells of their bytes. -/
theorem eq_cellsFrom_of_addresses (a : Nat) (m : Memory) (h : m.map (·.1) = List.range' a m.length) :
    m = cellsFrom a (m.map (·.2)) := by
  induction m generalizing a with
  | nil => rfl
  | cons c m ih =>
    obtain ⟨x, b⟩ := c
    simp only [List.map_cons, List.length_cons, List.range'_succ, List.cons.injEq] at h
    obtain ⟨rfl, h⟩ := h
    simp only [List.map_cons, cellsFrom, List.cons.injEq, true_and]
    exact ih _ h

theorem cellsFrom_read (a : Nat) (bs : List Byte) (k : Nat) :
    Memory.read (cellsFrom a bs) (a + k) = bs[k]? := by
  induction bs generalizing a k with
  | nil => rfl
  | cons b bs ih =>
    cases k with
    | zero => simp [cellsFrom, Memory.read]
    | succ k =>
      have h := ih (a + 1) k
      rw [show a + 1 + k = a + (k + 1) by omega] at h
      simp [cellsFrom, Memory.read, h]

@[simp] theorem Memory.ofBytes_bytes (bs : List Byte) : (Memory.ofBytes bs).bytes = bs := by
  simp [Memory.ofBytes, Memory.bytes]

@[simp] theorem Memory.ofBytes_fill (bs : List Byte) : (Memory.ofBytes bs).fill = bs.length := by
  simp [Memory.ofBytes, Memory.fill]

@[simp] theorem Memory.bytes_length (m : Memory) : m.bytes.length = m.fill := by
  simp [Memory.bytes, Memory.fill]

/-- The byte at an address of a buffer is the byte at that offset of what it holds. -/
@[simp] theorem Memory.ofBytes_read (bs : List Byte) (a : Nat) : (Memory.ofBytes bs).read a = bs[a]? := by
  have h := cellsFrom_read 0 bs a
  rwa [Nat.zero_add] at h

theorem Memory.ofBytes_append (xs : List Byte) (b : Byte) :
    Memory.ofBytes (xs ++ [b]) = Memory.ofBytes xs ++ [(xs.length, b)] := by
  simp [Memory.ofBytes, cellsFrom_append, cellsFrom]

@[simp] theorem Memory.ofBytes_eq_nil (bs : List Byte) : Memory.ofBytes bs = [] ↔ bs = [] := by
  cases bs <;> simp [Memory.ofBytes, cellsFrom]

/-- The canonical form in one equation: the buffer is the cells of its bytes, at most 261 of them. -/
theorem Memory.wf_iff (m : Memory) : m.wf = true ↔ m = Memory.ofBytes m.bytes ∧ m.fill ≤ Config.bufCapacity := by
  simp only [Memory.wf, Bool.and_eq_true, beq_iff_eq, decide_eq_true_eq, Memory.fill]
  constructor
  · rintro ⟨h, hl⟩
    rw [List.range_eq_range'] at h
    exact ⟨eq_cellsFrom_of_addresses 0 m h, hl⟩
  · rintro ⟨h, hl⟩
    refine ⟨?_, hl⟩
    have ha := cellsFrom_addresses 0 m.bytes
    rw [← Memory.ofBytes, ← h] at ha
    rw [List.range_eq_range', ha, Memory.bytes_length, Memory.fill]

/-- The empty buffer, which reset and every completed frame leave, is in canonical form. -/
theorem Memory.wf_nil : Memory.wf [] = true := by decide

/-- The reset state's memory is in canonical form. -/
theorem reset_memory_wf : State.reset.buf.wf = true := by decide

theorem Memory.ofBytes_wf (bs : List Byte) (h : bs.length ≤ Config.bufCapacity) : (Memory.ofBytes bs).wf = true := by
  simp [Memory.wf_iff, h]

/-- What the append can do: it stores at address `|buf|` while there is such an address. -/
theorem Memory.append_eq_some {m m' : Memory} {b : Byte} :
    m.append b = some m' ↔ m.fill < Config.bufCapacity ∧ m' = m ++ [(m.fill, b)] := by
  unfold Memory.append
  split <;> simp_all [eq_comm]

/-- The append keeps the canonical form. -/
theorem Memory.append_wf {m m' : Memory} {b : Byte} (h : m.wf = true) (ha : m.append b = some m') : m'.wf = true := by
  obtain ⟨hl, rfl⟩ := Memory.append_eq_some.mp ha
  obtain ⟨hm, -⟩ := (Memory.wf_iff m).mp h
  have : m ++ [(m.fill, b)] = Memory.ofBytes (m.bytes ++ [b]) := by
    rw [Memory.ofBytes_append, ← hm, Memory.bytes_length]
  rw [this]
  exact Memory.ofBytes_wf _ (by simpa using hl)

/-- What storing the arriving byte can do. -/
theorem State.storeByte_cases (s : State) (b : Byte) :
    (s.buf.fill < Config.bufCapacity ∧ s.storeByte b = .next (s.setBuf (s.buf ++ [(s.buf.fill, b)]))) ∨
    (Config.bufCapacity ≤ s.buf.fill ∧ s.storeByte b = .fault (.noSuchAddress s.buf.fill)) := by
  unfold State.storeByte Memory.append
  by_cases h : s.buf.fill < Config.bufCapacity
  · exact .inl ⟨h, by simp [h]⟩
  · exact .inr ⟨Nat.le_of_not_lt h, by simp [h]⟩

/-- The completion test on a buffer that holds `bs` (R144). -/
theorem Memory.ofBytes_complete (bs : List Byte) :
    (Memory.ofBytes bs).complete = true ↔ ∃ len, bs[3]? = some len ∧ bs.length = len.toNat + 6 := by
  simp only [Memory.complete, Memory.frameSize, Memory.ofBytes_read, Memory.ofBytes_fill, beq_iff_eq, Option.map_eq_some_iff]
  exact ⟨fun ⟨len, h, e⟩ => ⟨len, h, e.symm⟩, fun ⟨len, h, e⟩ => ⟨len, h, e.symm⟩⟩

end Sys2Proof.Machine
end

