-- ==== Sys2Proof/Laws/PerInstr.lean ====
section
/-!
SUPPORT. What holds of every instruction as syntax, one lemma per constructor: the size of its encoding and where its length byte
stands (30_encoding.md R81, R82, R90).
-/

namespace Sys2Proof.Laws

/-- The bytes of a format beside those its length byte counts: 4 + 2 for a frame, 2 for a sub-record (R82, R90). -/
abbrev overhead : Format → Nat
  | .outerFrame => 6
  | .subRecord => 2

/-- The offset of a format's length byte (R81, R90). -/
abbrev lengthOffset : Format → Nat
  | .outerFrame => 3
  | .subRecord => 1

/-- A well-formed instruction takes as many bytes as its length byte and the overhead of its format say: 6 to 261 for a frame, 2 to
257 for a sub-record (R82, R90, R93). -/
def EncodedSize.Statement (i : Instr) : Prop :=
  WellFormed i = true →
    (encode i).length = i.counted.length + overhead i.format ∧
    (∃ len, (encode i)[lengthOffset i.format]? = some len ∧ len.toNat = i.counted.length) ∧
    (encode i).length ≤ 255 + overhead i.format

theorem frameBytes_size (status packetType : Byte) (region : List Byte) (checksum etx : Byte) (h : region.length ≤ 255) :
    (frameBytes status packetType region checksum etx).length = region.length + 6 ∧
    (∃ len, (frameBytes status packetType region checksum etx)[3]? = some len ∧ len.toNat = region.length) ∧
    (frameBytes status packetType region checksum etx).length ≤ 255 + 6 := by
  have hl : (frameBytes status packetType region checksum etx).length = region.length + 6 := by simp [frameBytes]
  exact ⟨hl, ⟨_, rfl, byteOfNat_toNat _ h⟩, by omega⟩

theorem recordBytes_size (recordType : Byte) (body : List Byte) (h : body.length ≤ 255) :
    (recordBytes recordType body).length = body.length + 2 ∧
    (∃ len, (recordBytes recordType body)[1]? = some len ∧ len.toNat = body.length) ∧
    (recordBytes recordType body).length ≤ 255 + 2 := by
  have hl : (recordBytes recordType body).length = body.length + 2 := by simp [recordBytes]
  exact ⟨hl, ⟨_, rfl, byteOfNat_toNat _ h⟩, by omega⟩

/-- The length of a well-formed instruction's counted bytes. -/
theorem counted_length_le (i : Instr) (h : WellFormed i = true) : i.counted.length ≤ 255 := by
  simp only [WellFormed, lengthFits, Bool.and_eq_true, decide_eq_true_eq] at h
  exact h.1

theorem EncodedSize.genout (status : Byte) (region : List Byte) (checksum etx : Byte) :
    EncodedSize.Statement (.genout status region checksum etx) :=
  fun h => frameBytes_size status Config.pktGenout region checksum etx (counted_length_le _ h)

theorem EncodedSize.pktOther (status packetType : Byte) (region : List Byte) (checksum etx : Byte) :
    EncodedSize.Statement (.pktOther status packetType region checksum etx) :=
  fun h => frameBytes_size status packetType region checksum etx (counted_length_le _ h)

theorem EncodedSize.ins (body : List Byte) : EncodedSize.Statement (.ins body) :=
  fun h => recordBytes_size Config.recIns body (counted_length_le _ h)

theorem EncodedSize.insRms (body : List Byte) : EncodedSize.Statement (.insRms body) :=
  fun h => recordBytes_size Config.recInsRms body (counted_length_le _ h)

theorem EncodedSize.rec51 (body : List Byte) : EncodedSize.Statement (.rec51 body) :=
  fun h => recordBytes_size Config.rec51 body (counted_length_le _ h)

theorem EncodedSize.recOther (recordType : Byte) (body : List Byte) : EncodedSize.Statement (.recOther recordType body) :=
  fun h => recordBytes_size recordType body (counted_length_le _ h)

end Sys2Proof.Laws
end

