-- ==== Sys2Proof/Laws/Records.lean ====
section
/-!
SUPPORT. What the record decoders and the demultiplexer can do (44_record_decoders.md).
-/

namespace Sys2Proof.Machine

theorem beU8_isSome {s : List Byte} {a : Nat} (h : a + 1 ≤ s.length) : ∃ v, beU8 s a = some v := by
  simp [beU8, memRead, h]

theorem beU16_isSome {s : List Byte} {a : Nat} (h : a + 2 ≤ s.length) : ∃ v, beU16 s a = some v := by
  simp [beU16, memRead, h]

theorem beU32_isSome {s : List Byte} {a : Nat} (h : a + 4 ≤ s.length) : ∃ v, beU32 s a = some v := by
  simp [beU32, memRead, h]

theorem beF32_isSome {s : List Byte} {a : Nat} (h : a + 4 ≤ s.length) : ∃ v, beF32 s a = some v := by
  simp [beF32, memRead, h]

theorem beF64_isSome {s : List Byte} {a : Nat} (h : a + 8 ≤ s.length) : ∃ v, beF64 s a = some v := by
  simp [beF64, memRead, h]

/-- What the type 49 decoder can answer: the value of each field at its sub-record offset (R201). -/
theorem readInsSample_eq_some {r : List Byte} {now : Timestamp} {x : InsSample} :
    readInsSample r now = some x ↔
      beU16 r 2 = some x.week ∧ beU32 r 4 = some x.timeMs ∧ beU8 r 8 = some x.alignStatus ∧
      beU8 r 9 = some x.gnssStatus ∧ beF64 r 10 = some x.lat ∧ beF64 r 18 = some x.lon ∧ beF64 r 26 = some x.alt ∧
      beF32 r 34 = some x.vN ∧ beF32 r 38 = some x.vE ∧ beF32 r 42 = some x.vD ∧ beF32 r 46 = some x.speed ∧
      beF64 r 50 = some x.roll ∧ beF64 r 58 = some x.pitch ∧ beF64 r 66 = some x.heading ∧ beF64 r 74 = some x.track ∧
      beF32 r 82 = some x.wx ∧ beF32 r 86 = some x.wy ∧ beF32 r 90 = some x.wz ∧
      beF32 r 94 = some x.ax ∧ beF32 r 98 = some x.ay ∧ beF32 r 102 = some x.az ∧ x.captureTs = now := by
  constructor
  · intro h
    unfold readInsSample at h
    obtain ⟨_, h1, h⟩ := Option.bind_eq_some_iff.mp h
    obtain ⟨_, h2, h⟩ := Option.bind_eq_some_iff.mp h
    obtain ⟨_, h3, h⟩ := Option.bind_eq_some_iff.mp h
    obtain ⟨_, h4, h⟩ := Option.bind_eq_some_iff.mp h
    obtain ⟨_, h5, h⟩ := Option.bind_eq_some_iff.mp h
    obtain ⟨_, h6, h⟩ := Option.bind_eq_some_iff.mp h
    obtain ⟨_, h7, h⟩ := Option.bind_eq_some_iff.mp h
    obtain ⟨_, h8, h⟩ := Option.bind_eq_some_iff.mp h
    obtain ⟨_, h9, h⟩ := Option.bind_eq_some_iff.mp h
    obtain ⟨_, h10, h⟩ := Option.bind_eq_some_iff.mp h
    obtain ⟨_, h11, h⟩ := Option.bind_eq_some_iff.mp h
    obtain ⟨_, h12, h⟩ := Option.bind_eq_some_iff.mp h
    obtain ⟨_, h13, h⟩ := Option.bind_eq_some_iff.mp h
    obtain ⟨_, h14, h⟩ := Option.bind_eq_some_iff.mp h
    obtain ⟨_, h15, h⟩ := Option.bind_eq_some_iff.mp h
    obtain ⟨_, h16, h⟩ := Option.bind_eq_some_iff.mp h
    obtain ⟨_, h17, h⟩ := Option.bind_eq_some_iff.mp h
    obtain ⟨_, h18, h⟩ := Option.bind_eq_some_iff.mp h
    obtain ⟨_, h19, h⟩ := Option.bind_eq_some_iff.mp h
    obtain ⟨_, h20, h⟩ := Option.bind_eq_some_iff.mp h
    obtain ⟨_, h21, h⟩ := Option.bind_eq_some_iff.mp h
    cases h
    exact ⟨h1, h2, h3, h4, h5, h6, h7, h8, h9, h10, h11, h12, h13, h14, h15, h16, h17, h18, h19, h20, h21, rfl⟩
  · rintro ⟨h1, h2, h3, h4, h5, h6, h7, h8, h9, h10, h11, h12, h13, h14, h15, h16, h17, h18, h19, h20, h21, rfl⟩
    simp only [readInsSample, h1, h2, h3, h4, h5, h6, h7, h8, h9, h10, h11, h12, h13, h14, h15, h16, h17, h18, h19, h20, h21]
    rfl

/-- What the type 50 decoder can answer: the value of each field at its sub-record offset (R203). -/
theorem readRmsSample_eq_some {r : List Byte} {now : Timestamp} {x : RmsSample} :
    readRmsSample r now = some x ↔
      beU16 r 2 = some x.week ∧ beU32 r 4 = some x.timeMs ∧ beU8 r 8 = some x.alignStatus ∧
      beU8 r 9 = some x.gnssStatus ∧ beF32 r 10 = some x.posRmsN ∧ beF32 r 14 = some x.posRmsE ∧
      beF32 r 18 = some x.posRmsD ∧ beF32 r 22 = some x.velRmsN ∧ beF32 r 26 = some x.velRmsE ∧
      beF32 r 30 = some x.velRmsD ∧ beF32 r 34 = some x.rollRms ∧ beF32 r 38 = some x.pitchRms ∧
      beF32 r 42 = some x.headingRms ∧ x.captureTs = now := by
  constructor
  · intro h
    unfold readRmsSample at h
    obtain ⟨_, h1, h⟩ := Option.bind_eq_some_iff.mp h
    obtain ⟨_, h2, h⟩ := Option.bind_eq_some_iff.mp h
    obtain ⟨_, h3, h⟩ := Option.bind_eq_some_iff.mp h
    obtain ⟨_, h4, h⟩ := Option.bind_eq_some_iff.mp h
    obtain ⟨_, h5, h⟩ := Option.bind_eq_some_iff.mp h
    obtain ⟨_, h6, h⟩ := Option.bind_eq_some_iff.mp h
    obtain ⟨_, h7, h⟩ := Option.bind_eq_some_iff.mp h
    obtain ⟨_, h8, h⟩ := Option.bind_eq_some_iff.mp h
    obtain ⟨_, h9, h⟩ := Option.bind_eq_some_iff.mp h
    obtain ⟨_, h10, h⟩ := Option.bind_eq_some_iff.mp h
    obtain ⟨_, h11, h⟩ := Option.bind_eq_some_iff.mp h
    obtain ⟨_, h12, h⟩ := Option.bind_eq_some_iff.mp h
    obtain ⟨_, h13, h⟩ := Option.bind_eq_some_iff.mp h
    cases h
    exact ⟨h1, h2, h3, h4, h5, h6, h7, h8, h9, h10, h11, h12, h13, rfl⟩
  · rintro ⟨h1, h2, h3, h4, h5, h6, h7, h8, h9, h10, h11, h12, h13, rfl⟩
    simp only [readRmsSample, h1, h2, h3, h4, h5, h6, h7, h8, h9, h10, h11, h12, h13]
    rfl

/-- A sub-record with a body of 104 bytes or more holds every field (R57, R200). -/
theorem readInsSample_isSome {r : List Byte} (now : Timestamp) (h : 106 ≤ r.length) :
    ∃ x, readInsSample r now = some x := by
  obtain ⟨v1, h1⟩ := beU16_isSome (s := r) (a := 2) (by omega)
  obtain ⟨v2, h2⟩ := beU32_isSome (s := r) (a := 4) (by omega)
  obtain ⟨v3, h3⟩ := beU8_isSome (s := r) (a := 8) (by omega)
  obtain ⟨v4, h4⟩ := beU8_isSome (s := r) (a := 9) (by omega)
  obtain ⟨v5, h5⟩ := beF64_isSome (s := r) (a := 10) (by omega)
  obtain ⟨v6, h6⟩ := beF64_isSome (s := r) (a := 18) (by omega)
  obtain ⟨v7, h7⟩ := beF64_isSome (s := r) (a := 26) (by omega)
  obtain ⟨v8, h8⟩ := beF32_isSome (s := r) (a := 34) (by omega)
  obtain ⟨v9, h9⟩ := beF32_isSome (s := r) (a := 38) (by omega)
  obtain ⟨v10, h10⟩ := beF32_isSome (s := r) (a := 42) (by omega)
  obtain ⟨v11, h11⟩ := beF32_isSome (s := r) (a := 46) (by omega)
  obtain ⟨v12, h12⟩ := beF64_isSome (s := r) (a := 50) (by omega)
  obtain ⟨v13, h13⟩ := beF64_isSome (s := r) (a := 58) (by omega)
  obtain ⟨v14, h14⟩ := beF64_isSome (s := r) (a := 66) (by omega)
  obtain ⟨v15, h15⟩ := beF64_isSome (s := r) (a := 74) (by omega)
  obtain ⟨v16, h16⟩ := beF32_isSome (s := r) (a := 82) (by omega)
  obtain ⟨v17, h17⟩ := beF32_isSome (s := r) (a := 86) (by omega)
  obtain ⟨v18, h18⟩ := beF32_isSome (s := r) (a := 90) (by omega)
  obtain ⟨v19, h19⟩ := beF32_isSome (s := r) (a := 94) (by omega)
  obtain ⟨v20, h20⟩ := beF32_isSome (s := r) (a := 98) (by omega)
  obtain ⟨v21, h21⟩ := beF32_isSome (s := r) (a := 102) (by omega)
  exact ⟨⟨v1, v2, v3, v4, v5, v6, v7, v8, v9, v10, v11, v12, v13, v14, v15, v16, v17, v18, v19, v20, v21, now⟩,
    readInsSample_eq_some.mpr ⟨h1, h2, h3, h4, h5, h6, h7, h8, h9, h10, h11, h12, h13, h14, h15, h16, h17, h18, h19, h20,
      h21, rfl⟩⟩

/-- A sub-record with a body of 44 bytes or more holds every field (R57, R202). -/
theorem readRmsSample_isSome {r : List Byte} (now : Timestamp) (h : 46 ≤ r.length) :
    ∃ x, readRmsSample r now = some x := by
  obtain ⟨v1, h1⟩ := beU16_isSome (s := r) (a := 2) (by omega)
  obtain ⟨v2, h2⟩ := beU32_isSome (s := r) (a := 4) (by omega)
  obtain ⟨v3, h3⟩ := beU8_isSome (s := r) (a := 8) (by omega)
  obtain ⟨v4, h4⟩ := beU8_isSome (s := r) (a := 9) (by omega)
  obtain ⟨v5, h5⟩ := beF32_isSome (s := r) (a := 10) (by omega)
  obtain ⟨v6, h6⟩ := beF32_isSome (s := r) (a := 14) (by omega)
  obtain ⟨v7, h7⟩ := beF32_isSome (s := r) (a := 18) (by omega)
  obtain ⟨v8, h8⟩ := beF32_isSome (s := r) (a := 22) (by omega)
  obtain ⟨v9, h9⟩ := beF32_isSome (s := r) (a := 26) (by omega)
  obtain ⟨v10, h10⟩ := beF32_isSome (s := r) (a := 30) (by omega)
  obtain ⟨v11, h11⟩ := beF32_isSome (s := r) (a := 34) (by omega)
  obtain ⟨v12, h12⟩ := beF32_isSome (s := r) (a := 38) (by omega)
  obtain ⟨v13, h13⟩ := beF32_isSome (s := r) (a := 42) (by omega)
  exact ⟨⟨v1, v2, v3, v4, v5, v6, v7, v8, v9, v10, v11, v12, v13, now⟩,
    readRmsSample_eq_some.mpr ⟨h1, h2, h3, h4, h5, h6, h7, h8, h9, h10, h11, h12, h13, rfl⟩⟩

/-- What INS can do (R200, R201): it never stops. -/
theorem execIns_cases (body : List Byte) (s : State) :
    (body.length < 104 ∧ execIns body s = .next (s.raise .recordTooShort Config.recIns (byteOfNat body.length))) ∨
    (104 ≤ body.length ∧ ∃ x, readInsSample (recordBytes Config.recIns body) s.now = some x ∧
      execIns body s = .next (s.emit (.ins x))) := by
  by_cases h : body.length < 104
  · exact .inl ⟨h, by simp [execIns, h]⟩
  · obtain ⟨x, hx⟩ := readInsSample_isSome (r := recordBytes Config.recIns body) s.now (by simp [recordBytes]; omega)
    exact .inr ⟨by omega, x, hx, by rw [execIns, if_neg h, hx]⟩

/-- What INS_RMS can do (R202, R203): it never stops. -/
theorem execInsRms_cases (body : List Byte) (s : State) :
    (body.length < 44 ∧ execInsRms body s = .next (s.raise .recordTooShort Config.recInsRms (byteOfNat body.length))) ∨
    (44 ≤ body.length ∧ ∃ x, readRmsSample (recordBytes Config.recInsRms body) s.now = some x ∧
      execInsRms body s = .next (s.emit (.rms x))) := by
  by_cases h : body.length < 44
  · exact .inl ⟨h, by simp [execInsRms, h]⟩
  · obtain ⟨x, hx⟩ := readRmsSample_isSome (r := recordBytes Config.recInsRms body) s.now (by simp [recordBytes]; omega)
    exact .inr ⟨by omega, x, hx, by rw [execInsRms, if_neg h, hx]⟩

/-- What a decoded or refused sub-record can append: one item that is a sample of this step, or an error of code 8 or 9. -/
theorem dispatch_cases (t : Byte) (body : List Byte) (s : State) :
    ∃ item, dispatch t body s = .next (s.emit item) ∧
      ((∃ x, item = .ins x ∧ t = Config.recIns ∧ readInsSample (recordBytes Config.recIns body) s.now = some x) ∨
       (∃ x, item = .rms x ∧ t = Config.recInsRms ∧ readRmsSample (recordBytes Config.recInsRms body) s.now = some x) ∨
       item = .err 8 t (byteOfNat body.length) ∨ item = .err 9 t (byteOfNat body.length)) := by
  unfold dispatch
  split_ifs with h1 h2 h3
  · rcases execIns_cases body s with ⟨-, he⟩ | ⟨-, x, hx, he⟩
    · exact ⟨_, he, .inr (.inr (.inr (by simp [ErrorKind.item, ErrorKind.code, h1])))⟩
    · exact ⟨_, he, .inl ⟨x, rfl, h1, hx⟩⟩
  · rcases execInsRms_cases body s with ⟨-, he⟩ | ⟨-, x, hx, he⟩
    · exact ⟨_, he, .inr (.inr (.inr (by simp [ErrorKind.item, ErrorKind.code, h2])))⟩
    · exact ⟨_, he, .inr (.inl ⟨x, rfl, h2, hx⟩)⟩
  · exact ⟨_, rfl, .inr (.inr (.inl (by simp [ErrorKind.item, ErrorKind.code, h3])))⟩
  · exact ⟨_, rfl, .inr (.inr (.inl (by simp [ErrorKind.item, ErrorKind.code])))⟩

end Sys2Proof.Machine
end

