-- ==== Sys2Proof/Laws/Walker.lean ====
section
/-!
SUPPORT. One iteration of the walker (43_subrecord_walker.md R180).
-/

namespace Sys2Proof.Machine

/-- The end of the walk (R181). -/
theorem walkFrom_end (p : List Byte) (fuel pos : Nat) (s : State) (h : p.length ≤ pos) :
    walkFrom p fuel pos s = .next s := by
  cases fuel with
  | zero => rfl
  | succ fuel => simp [walkFrom, List.drop_eq_nil_of_le h]

/-- One iteration of the walk at a cursor inside the payload: it stops with TruncatedSubRecord, or dispatches one sub-record and
goes on behind it (R182 to R186). -/
theorem walkFrom_succ_cases (p : List Byte) (fuel pos : Nat) (s : State) (h : pos < p.length) :
    ((∃ t, p.drop pos = [t]) ∧
      walkFrom p (fuel + 1) pos s =
        .next (s.raise .truncatedSubRecord (byteOfNat pos) (byteOfNat (p.length - pos)))) ∨
    (∃ t l tail, p.drop pos = t :: l :: tail ∧ tail.length < l.toNat ∧
      walkFrom p (fuel + 1) pos s =
        .next (s.raise .truncatedSubRecord (byteOfNat pos) (byteOfNat (p.length - pos)))) ∨
    (∃ t l tail, p.drop pos = t :: l :: tail ∧ l.toNat ≤ tail.length ∧ pos + 2 + l.toNat ≤ p.length ∧
      walkFrom p (fuel + 1) pos s =
        andThen (dispatch t (tail.take l.toNat) s) (walkFrom p fuel (pos + 2 + l.toNat))) := by
  have hlen : (p.drop pos).length = p.length - pos := List.length_drop
  match hd : p.drop pos with
  | [] => rw [hd] at hlen; simp at hlen; omega
  | [t] => exact .inl ⟨⟨t, rfl⟩, by simp [walkFrom, hd]⟩
  | t :: l :: tail =>
    rw [hd] at hlen
    simp only [List.length_cons] at hlen
    by_cases hl : tail.length < l.toNat
    · refine .inr (.inl ⟨t, l, tail, rfl, hl, ?_⟩)
      have : p.length - pos < Config.srHdrLen + l.toNat := by show _ < 2 + _; omega
      simp [walkFrom, hd, this]
    · refine .inr (.inr ⟨t, l, tail, rfl, by omega, by omega, ?_⟩)
      have : ¬ p.length - pos < Config.srHdrLen + l.toNat := by show ¬ _ < 2 + _; omega
      simp [walkFrom, hd, this, advance]

end Sys2Proof.Machine
end

