-- ==== Sys2Proof/Laws/Step.lean ====
section
/-!
SUPPORT. What a step can do (41_frame_sync.md R140, R149).
-/

namespace Sys2Proof.Machine

theorem State.mode_eq_hunt (s : State) : s.mode = .hunt ↔ s.buf = [] := by
  simp [State.mode, Memory.fill]

theorem State.mode_eq_collect (s : State) : s.mode = .collect ↔ s.buf ≠ [] := by
  unfold State.mode Memory.fill
  split <;> simp_all

/-- Every step is one row of the synchronizer's transition table (R149), the idle step (R257), or the stop of an append past the
buffer's last address (log entry 5). -/
theorem step_cases (s : State) :
    (s.input = [] ∧ step s = .next s) ∨
    (∃ rest, s.input = .reset :: rest ∧ step s = .next ((s.setInput rest).clearBuf)) ∨
    (∃ b now rest, s.input = .byte b now :: rest ∧
      ((s.buf = [] ∧ b ≠ Config.stx ∧ step s = .next ((s.setInput rest).setNow now)) ∨
       (s.buf = [] ∧ b = Config.stx ∧ step s = .next (((s.setInput rest).setNow now).setBuf [(0, b)])) ∨
       (s.buf ≠ [] ∧ Config.bufCapacity ≤ s.buf.fill ∧ step s = .fault (.noSuchAddress s.buf.fill)) ∨
       (s.buf ≠ [] ∧ s.buf.fill < Config.bufCapacity ∧
         let u := ((s.setInput rest).setNow now).setBuf (s.buf ++ [(s.buf.fill, b)])
         (u.buf.complete = false ∧ step s = .next u) ∨
         (u.buf.complete = true ∧ step s = andThen (runFrame u.buf.bytes u) (fun t => .next t.clearBuf))))) := by
  unfold step nextEvent
  match hi : s.input with
  | [] => exact .inl ⟨rfl, rfl⟩
  | .reset :: rest => exact .inr (.inl ⟨rest, rfl, rfl⟩)
  | .byte b now :: rest =>
    refine .inr (.inr ⟨b, now, rest, rfl, ?_⟩)
    simp only [handleEvent, byteEvent]
    by_cases hb : s.buf = []
    · have hm : (s.setInput rest).mode = .hunt := (State.mode_eq_hunt _).mpr hb
      rw [hm]
      by_cases hx : b = Config.stx
      · refine .inr (.inl ⟨hb, hx, ?_⟩)
        simp [huntByte, hx, State.storeByte, Memory.append, hb, Memory.fill]
      · exact .inl ⟨hb, hx, by simp only [huntByte, if_neg hx]⟩
    · have hm : (s.setInput rest).mode = .collect := (State.mode_eq_collect _).mpr hb
      rw [hm]
      rcases State.storeByte_cases ((s.setInput rest).setNow now) b with ⟨hl, he⟩ | ⟨hl, he⟩
      · refine .inr (.inr (.inr ⟨hb, hl, ?_⟩))
        simp only [collectByte, he, andThen_next, frameComplete]
        cases hc : (((s.setInput rest).setNow now).setBuf (s.buf ++ [(s.buf.fill, b)])).buf.complete
        · exact .inl ⟨rfl, by simp_all⟩
        · exact .inr ⟨rfl, by simp_all⟩
      · exact .inr (.inr (.inl ⟨hb, hl, by simp only [collectByte, he, andThen_fault]; rfl⟩))

end Sys2Proof.Machine
end

