-- ==== Sys2Proof/Machine/FloatView.lean ====
section
/-!
DEFINITION. How a READER may interpret a floating-point pattern (40_byte_codec.md R127). No part of the machine uses this file:
the block moves the patterns and never looks at them (R125). PRESUMED: the split is general knowledge of the spec's writer
(93_implementation_defined.md G2; log entry 14).
-/

namespace Sys2Proof.Machine

/-- What a pattern stands for, with its sign (true: negative). A normal number is `± significand * 2^exponent`. -/
inductive FloatView where
  | zero (negative : Bool)
  | subnormal (negative : Bool) (fraction : Nat)
  | normal (negative : Bool) (significand : Nat) (exponent : Int)
  | infinity (negative : Bool)
  | nan (negative : Bool) (payload : Nat)
deriving DecidableEq, Repr

/-- The split of a pattern with the given sizes and bias: `2^(e - bias) * (1 + m / 2^fractionBits)` is
`(2^fractionBits + m) * 2^(e - bias - fractionBits)` (R127). -/
def viewFloat (fractionBits exponentBits bias : Nat) (v : Nat) : FloatView :=
  let m := v % 2 ^ fractionBits
  let e := v / 2 ^ fractionBits % 2 ^ exponentBits
  let negative := v / 2 ^ (fractionBits + exponentBits) % 2 == 1
  if e = 0 then (if m = 0 then .zero negative else .subnormal negative m)
  else if e = 2 ^ exponentBits - 1 then (if m = 0 then .infinity negative else .nan negative m)
  else .normal negative (2 ^ fractionBits + m) ((e : Int) - (bias : Int) - (fractionBits : Int))

/-- Sign 1, exponent 8 (bias 127), fraction 23 bits (R127). -/
def viewF32 (v : F32Bits) : FloatView := viewFloat 23 8 127 v.toNat

/-- Sign 1, exponent 11 (bias 1023), fraction 52 bits (R127). -/
def viewF64 (v : F64Bits) : FloatView := viewFloat 52 11 1023 v.toNat

end Sys2Proof.Machine
end

