-- ==== Sys2Proof/Tests/Slice0.lean ====
section
/-!
SUPPORT. Tests. Expected results come from spec/95_test_vectors.md (V.., S.., P..) and from the encodings of 30_encoding.md, not
from the model. Then one witness per statement with hypotheses: a state and operands that meet all of them.
-/

namespace Sys2Proof.Tests

open Sys2Proof.Machine

/-- The state just before the last byte of a frame arrives, every other field as reset leaves it. -/
def holding (f : List Byte) (now : Timestamp) : State := (State.reset.setNow now).holdFrame f

/-- The next state of an answer that is one. -/
def nextOf (r : Result) : Option State :=
  match r with
  | .next t => some t
  | .fault _ => none
  | .refused _ => none

/-- The outputs of the step that completes the frame `f`; nothing unless that step answers with an empty buffer. -/
def outputs (f : List Byte) : Option (List Item) :=
  match nextOf (step (holding f 0)) with
  | some { buf := [], now := _, input := [], out := out } => some out
  | _ => none

/-- The bytes 1, 2, 3, ... of V62 and V63. -/
def counting (n : Nat) : List Byte := (List.range n).map (fun k => byteOfNat (k + 1))

def zeros (n : Nat) : List Byte := List.replicate n 0

/-! ### Well-formedness: each check refuses an ill-formed term -/

theorem test_wellFormed_region_too_long : WellFormed (.genout 0 (zeros 256) 0 3) = false := by decide +kernel
theorem test_wellFormed_body_too_long : WellFormed (.recOther 7 (zeros 256)) = false := by decide +kernel
theorem test_wellFormed_pktOther_is_not_genout : WellFormed (.pktOther 0 0x40 [] 0 3) = false := by decide
theorem test_wellFormed_recOther_is_no_named_row :
    [0x31, 0x32, 0x33].map (fun t => WellFormed (.recOther t [])) = [false, false, false] := by decide
theorem test_wellFormed_accepts_the_rest :
    WellFormed (.pktOther 0 0x41 [] 0 3) = true ∧ WellFormed (.recOther 0x34 []) = true := by decide

/-! ### Decoding: words written out from R81, R90 and R95 -/

/-- V20's bytes. -/
theorem test_decode_genout : decode .outerFrame [0x02, 0x00, 0x40, 0x03, 0x01, 0x00, 0x00, 0x44, 0x03] =
    .ok (.genout 0x00 [0x01, 0x00, 0x00] 0x44 0x03, []) := by decide

/-- V22's bytes. -/
theorem test_decode_pktOther : decode .outerFrame [0x02, 0x00, 0x41, 0x03, 0x01, 0x00, 0x00, 0x45, 0x03] =
    .ok (.pktOther 0x00 0x41 [0x01, 0x00, 0x00] 0x45 0x03, []) := by decide

theorem test_decode_ins : decode .subRecord [0x31, 0x01, 0xAA, 0xBB] = .ok (.ins [0xAA], [0xBB]) := by decide
theorem test_decode_insRms : decode .subRecord [0x32, 0x02, 0x01, 0x02] = .ok (.insRms [0x01, 0x02], []) := by decide
theorem test_decode_rec51 : decode .subRecord [0x33, 0x00, 0xFF, 0x02] = .ok (.rec51 [], [0xFF, 0x02]) := by decide
theorem test_decode_recOther : decode .subRecord [0x07, 0x02, 0xAA, 0xBB] = .ok (.recOther 0x07 [0xAA, 0xBB], []) := by decide

/-- Refused by name: too few bytes (R82, V43, V45), no start marker (V21). -/
theorem test_decode_refuses :
    decode .outerFrame [0x02, 0x00, 0x40, 0x03, 0x01, 0x00, 0x00, 0x44] = .error .incomplete ∧
    decode .outerFrame [0x03, 0x00, 0x40, 0x03, 0x01, 0x00, 0x00, 0x44, 0x03] = .error (.badStart 0x03) ∧
    decode .subRecord [0x33] = .error .incomplete ∧
    decode .subRecord [0x33, 0x05, 0xAA, 0xBB] = .error .incomplete := by decide

/-- The `match` words of the opcode table, with every bit above them 0. -/
theorem test_decodeTableWord :
    decodeTableWord 56 0x02004000000000 = some (.genout 0 [] 0 0) ∧
    decodeTableWord 56 0x02000000000000 = some (.pktOther 0 0 [] 0 0) ∧
    decodeTableWord 16 0x3100 = some (.ins []) ∧ decodeTableWord 16 0x3200 = some (.insRms []) ∧
    decodeTableWord 16 0x3300 = some (.rec51 []) ∧ decodeTableWord 16 0x0000 = some (.recOther 0 []) := by decide +kernel

/-- `step` runs the table's word as the first instruction after reset: what V41 and R205 say of REC51, R162 of PKT_OTHER. -/
theorem test_withFetchWord :
    nextOf (step (State.reset.withFetchWord 16 0x3300)) = some (State.reset.emit (.err 8 0x33 0)) ∧
    nextOf (step (State.reset.withFetchWord 56 0x02004100000000)) = some (State.reset.emit (.err 2 0x41 0)) := by
  decide +kernel

/-- R98's example frame `PF` from its builder. -/
theorem test_buildFrame_PF : buildFrame 0x00 0x01 (recordBytes 0x33 []) =
    [0x02, 0x00, 0x40, 0x05, 0x01, 0x00, 0x00, 0x33, 0x00, 0x79, 0x03] := by decide

/-! ### Byte codec and checksum -/

/-- V1 to V7, V10, V12. -/
theorem test_be :
    beU8 [0xAB] 0 = some 0xAB ∧ beU16 [0x08, 0x98] 0 = some 2200 ∧ beU16 [0x98, 0x08] 0 = some 38920 ∧
    beU16 [0xFF, 0xFF] 0 = some 65535 ∧ beU32 [0x00, 0x01, 0xE2, 0x40] 0 = some 123456 ∧
    beU32 [0x80, 0x00, 0x00, 0x00] 0 = some 2147483648 ∧ beF32 [0x3F, 0x80, 0x00, 0x00] 0 = some 0x3F800000 ∧
    beF64 [0xC0, 0x5E, 0x93, 0x33, 0x33, 0x33, 0x33, 0x33] 0 = some 0xC05E933333333333 ∧
    beU16 [0x31, 0x68, 0x08, 0x98, 0x00, 0x01, 0xE2, 0x40] 2 = some 0x0898 ∧
    beU32 [0x31, 0x68, 0x08, 0x98, 0x00, 0x01, 0xE2, 0x40] 4 = some 0x0001E240 := by decide

/-- V30: the sum wraps modulo 256. -/
theorem test_sum8_wraps : sum8 [0x02, 0xFF, 0x40, 0x03, 0xFF, 0x00, 0x00, 0x41, 0x03] 1 6 = 0x41 := by decide

/-- The captions of 95_test_vectors.md: 1.0, 37.5 = 75/2, minus infinity, a signalling NaN, negative zero. -/
theorem test_floatView :
    viewF32 0x3F800000 = .normal false (2 ^ 23) (-23) ∧ viewF64 0x4042C00000000000 = .normal false (75 * 2 ^ 46) (-47) ∧
    viewF32 0xFF800000 = .infinity true ∧ viewF32 0x7FA00001 = .nan false 0x200001 ∧
    viewF64 0x8000000000000000 = .zero true := by decide +kernel

/-! ### One step on one frame -/

/-- V23, V23b, V24, V24b, V25, V26, V28, V29: each refusal of GENOUT, and the order of the checks. -/
theorem test_genout_refusals :
    [ [0x02, 0x00, 0x40, 0x00, 0x40, 0x03],
      [0x02, 0x00, 0x40, 0x02, 0x01, 0x00, 0x43, 0x03],
      [0x02, 0x00, 0x40, 0x03, 0x01, 0x01, 0x00, 0x45, 0x03],
      [0x02, 0x00, 0x40, 0x03, 0x01, 0x00, 0x02, 0x46, 0x03],
      [0x02, 0x00, 0x40, 0x03, 0x01, 0x00, 0x00, 0x45, 0x03],
      [0x02, 0x00, 0x40, 0x03, 0x01, 0x00, 0x00, 0x44, 0x04],
      [0x02, 0x00, 0x40, 0x03, 0x01, 0x01, 0x00, 0xEE, 0x03],
      [0x02, 0x00, 0x40, 0x03, 0x01, 0x00, 0x00, 0xEE, 0x04] ].map outputs =
    [ some [.err 3 0x00 0x00],
      some [.err 3 0x02 0x00],
      some [.err 4 0x01 0x00],
      some [.err 4 0x00 0x02],
      some [.err 5 0x44 0x45],
      some [.err 6 0x04 0x00],
      some [.err 4 0x01 0x00],
      some [.err 5 0x44 0xEE] ] := by decide +kernel

/-- V20, V42, V43, V44, V46, V35: accepted frames and their walks. -/
theorem test_genout_walks :
    [ [0x02, 0x00, 0x40, 0x03, 0x01, 0x00, 0x00, 0x44, 0x03],
      [0x02, 0x00, 0x40, 0x0C, 0x01, 0x00, 0x00, 0x01, 0x01, 0xAA, 0x33, 0x00, 0xFF, 0x02, 0xBB, 0xCC, 0xB4, 0x03],
      [0x02, 0x00, 0x40, 0x04, 0x01, 0x00, 0x00, 0x33, 0x78, 0x03],
      [0x02, 0x00, 0x40, 0x06, 0x01, 0x00, 0x00, 0x33, 0x00, 0x31, 0xAB, 0x03],
      [0x02, 0x00, 0x40, 0x06, 0x01, 0x00, 0x00, 0x31, 0x68, 0x00, 0xE0, 0x03],
      [0x02, 0x00, 0x40, 0x05, 0x01, 0x00, 0x00, 0x32, 0x01, 0x79, 0x03] ].map outputs =
    [ some [],
      some [.err 8 0x01 0x01, .err 8 0x33 0x00, .err 8 0xFF 0x02],
      some [.err 7 0x00 0x01],
      some [.err 8 0x33 0x00, .err 7 0x02 0x01],
      some [.err 7 0x00 0x03],
      some [.err 7 0x00 0x02] ] := by decide +kernel

/-- V22, V27, V17. -/
theorem test_pktOther :
    [ [0x02, 0x00, 0x41, 0x03, 0x01, 0x00, 0x00, 0x45, 0x03],
      [0x02, 0x00, 0x41, 0x03, 0x01, 0x01, 0x00, 0xEE, 0x04],
      [0x02, 0xFF, 0xFF, 0x00, 0x41, 0x42] ].map outputs =
    [ some [.err 2 0x41 0x00],
      some [.err 2 0x41 0x00],
      some [.err 2 0xFF 0x00] ] := by decide +kernel

/-- V62: distinct bytes show every offset of R91; whatever `now` is, it is `capture_ts`. -/
theorem test_ins_offsets (now : Timestamp) : nextOf (exec (.ins (counting 104)) (State.reset.setNow now)) =
    some ((State.reset.setNow now).emit (.ins
      { week := 0x0102, timeMs := 0x03040506, alignStatus := 0x07, gnssStatus := 0x08, lat := 0x090A0B0C0D0E0F10,
        lon := 0x1112131415161718, alt := 0x191A1B1C1D1E1F20, vN := 0x21222324, vE := 0x25262728, vD := 0x292A2B2C,
        speed := 0x2D2E2F30, roll := 0x3132333435363738, pitch := 0x393A3B3C3D3E3F40, heading := 0x4142434445464748,
        track := 0x494A4B4C4D4E4F50, wx := 0x51525354, wy := 0x55565758, wz := 0x595A5B5C, ax := 0x5D5E5F60,
        ay := 0x61626364, az := 0x65666768, captureTs := now })) := by rfl

/-- V64, V65. -/
theorem test_ins_too_short :
    nextOf (exec (.ins (zeros 103)) State.reset) = some (State.reset.emit (.err 9 0x31 0x67)) ∧
    outputs [0x02, 0x00, 0x40, 0x05, 0x01, 0x00, 0x00, 0x31, 0x00, 0x77, 0x03] = some [.err 9 0x31 0x00] := by
  decide +kernel

/-- V63: distinct bytes show every offset of R92; one byte more changes nothing (V68). -/
theorem test_insRms_offsets (now : Timestamp) : nextOf (exec (.insRms (counting 45)) (State.reset.setNow now)) =
    some ((State.reset.setNow now).emit (.rms
      { week := 0x0102, timeMs := 0x03040506, alignStatus := 0x07, gnssStatus := 0x08, posRmsN := 0x090A0B0C,
        posRmsE := 0x0D0E0F10, posRmsD := 0x11121314, velRmsN := 0x15161718, velRmsE := 0x191A1B1C, velRmsD := 0x1D1E1F20,
        rollRms := 0x21222324, pitchRms := 0x25262728, headingRms := 0x292A2B2C, captureTs := now })) := by rfl

/-- V67. -/
theorem test_insRms_too_short :
    nextOf (exec (.insRms (zeros 43)) State.reset) = some (State.reset.emit (.err 9 0x32 0x2B)) := by decide +kernel

/-- V41, V48. -/
theorem test_rec51 :
    outputs [0x02, 0x00, 0x40, 0x05, 0x01, 0x00, 0x00, 0x33, 0x00, 0x79, 0x03] = some [.err 8 0x33 0x00] ∧
    nextOf (exec (.rec51 (zeros 250)) State.reset) = some (State.reset.emit (.err 8 0x33 0xFA)) := by decide +kernel

/-- V47. -/
theorem test_recOther :
    outputs [0x02, 0x00, 0x40, 0x07, 0x01, 0x00, 0x00, 0x07, 0x02, 0xAA, 0xBB, 0xB6, 0x03] = some [.err 8 0x07 0x02] := by decide +kernel

/-- V13, first and fourth byte; V14: 0xFF in HUNT leaves nothing; V16: the partial frame waits. -/
theorem test_sync (now : Timestamp) :
    [ { State.reset with input := [.byte 0x02 now] },
      { State.reset with buf := Memory.ofBytes [0x02, 0x00, 0x40], input := [.byte 0x05 now] },
      { State.reset with input := [.byte 0xFF now] } ].map (fun s => nextOf (step s)) =
    [ some { State.reset with buf := [(0, 0x02)], now := now },
      some { State.reset with buf := [(0, 0x02), (1, 0x00), (2, 0x40), (3, 0x05)], now := now },
      some { State.reset with now := now } ] := by rfl

/-- V73: Reset in mid-frame drops the partial frame without a report. -/
theorem test_reset_event :
    nextOf (step { State.reset with buf := Memory.ofBytes [0x02, 0x00, 0x40, 0x05, 0x01], input := [.reset] }) =
      some State.reset := by decide +kernel

/-- R34: each channel sees its own items in order (V51's outcome, the sample shortened to its channel). -/
theorem test_channels : channelItems .err [.err 8 0x33 0, .err 7 2 1] = [.err 8 0x33 0, .err 7 2 1] ∧
    channelItems .ins [.err 8 0x33 0] = [] := by decide

/-! ### Witnesses: states and operands that meet the hypotheses of each statement, at the ends of their ranges -/

/-- V20's frame, whose bytes are all but one held by the witnesses of the synchronizer. -/
def shortFrame : List Byte := [0x02, 0x00, 0x40, 0x03, 0x01, 0x00, 0x00, 0x44, 0x03]

/-- `PF`, the probe frame of 95_test_vectors.md. -/
def probeFrame : List Byte := [0x02, 0x00, 0x40, 0x05, 0x01, 0x00, 0x00, 0x33, 0x00, 0x79, 0x03]

/-- `RMSB`, the type 50 body of 95_test_vectors.md. -/
def rmsb : List Byte :=
  [0x08, 0x98, 0x00, 0x01, 0xE2, 0x40, 0x03, 0x04] ++ (List.replicate 9 [0x3F, 0x80, 0x00, 0x00]).flatten

/-- A full buffer of 260 bytes, one short of the longest frame (V32). -/
def nearlyFull : List Byte := [0x02, 0x00, 0x40, 0xFF, 0x01, 0x00, 0x00, 0x33, 0xFA] ++ zeros 250 ++ [0x6D]

theorem witness_DecodeInvertsEncode :
    WellFormed (.genout 0 (zeros 255) 0 3) = true ∧ WellFormed (.genout 0 [] 0 0) = true ∧
    WellFormed (.pktOther 0 0x41 (zeros 255) 0 3) = true ∧ WellFormed (.pktOther 0 0x3F [] 0 3) = true ∧
    WellFormed (.ins (zeros 255)) = true ∧ WellFormed (.insRms []) = true ∧ WellFormed (.rec51 (zeros 255)) = true ∧
    WellFormed (.recOther 0x30 []) = true ∧ WellFormed (.recOther 0x34 (zeros 255)) = true := by decide +kernel

theorem witness_EncodeInvertsDecode :
    decode .outerFrame (probeFrame ++ [0xFF]) = .ok (.genout 0 [0x01, 0x00, 0x00, 0x33, 0x00] 0x79 0x03, [0xFF]) ∧
    decode .subRecord [0x00, 0x00] = .ok (.recOther 0 [], []) := by decide

theorem witness_DecodeFollowsOpcodeTable :
    decode .outerFrame probeFrame = .ok (.genout 0 [0x01, 0x00, 0x00, 0x33, 0x00] 0x79 0x03, []) ∧
    decode .outerFrame [0x02, 0, 0xFF, 0, 0, 0] = .ok (.pktOther 0 0xFF [] 0 0, []) ∧
    decode .subRecord [0x31, 0x00] = .ok (.ins [], []) ∧ decode .subRecord [0x32, 0x00] = .ok (.insRms [], []) ∧
    decode .subRecord [0x33, 0x00] = .ok (.rec51 [], []) ∧ decode .subRecord [0x34, 0x00] = .ok (.recOther 0x34 [], []) := by
  decide

/-- Each side of each equivalence: bytes that hold a unit to the last byte, bytes one short, and a wrong start. -/
theorem witness_DecodeAnswersExactlyOnWholeUnits :
    decode .subRecord [0x33, 0x02, 0xAA, 0xBB] = .ok (.rec51 [0xAA, 0xBB], []) ∧
    decode .subRecord [0x33, 0x02, 0xAA] = .error .incomplete ∧
    decode .outerFrame [0x02, 0, 0x40, 0, 0, 0] = .ok (.genout 0 [] 0 0, []) ∧
    decode .outerFrame [0x02, 0, 0x40, 0, 0] = .error .incomplete ∧
    decode .outerFrame [0x03, 0, 0x40, 0] = .error (.badStart 0x03) := by decide

theorem witness_BuiltFramesAreAccepted : ([] : List Byte).length ≤ 252 ∧ (zeros 252).length ≤ 252 := by decide +kernel

theorem witness_ReadsAreBigEndian : 0 + 8 ≤ (zeros 8).length ∧ 8 + 0 ≤ (zeros 8).length ∧ (0 < 8 ∧ 7 < 8) := by decide

/-- Each clause at the last offset that fits. -/
theorem witness_CodecWidthsHalvesAndInverse :
    (7 + 1 ≤ (zeros 8).length ∧ 6 + 2 ≤ (zeros 8).length ∧ 4 + 4 ≤ (zeros 8).length ∧ 0 + 8 ≤ (zeros 8).length) ∧
    0 + 2 * 4 ≤ (zeros 8).length ∧ (0 < 256 ^ 0 ∧ 65535 < 256 ^ 2) ∧
    (memRead [0x08, 0x98] 0 2 = some 2200 ∧ 1 < 2) := by decide

theorem witness_Sum8IsSumModulo256 : ([0xFF, 0x02] : List Byte).Perm [0x02, 0xFF] := by decide

theorem witness_ChecksumDetectsSingleChanges :
    (1 ≤ 1 ∧ 1 ≤ 6 ∧ 1 < shortFrame.length ∧ byteAt shortFrame 1 ≠ 0x01) ∧
    (1 ≤ 6 ∧ 6 ≤ 6 ∧ 6 < shortFrame.length ∧ byteAt shortFrame 6 ≠ 0x01) := by decide

theorem witness_PktOtherReportsItsType :
    ((0x3F : Byte) ≠ 0x40 ∧ ([] : List Byte).length ≤ 255) ∧ ((0x41 : Byte) ≠ 0x40 ∧ (zeros 255).length ≤ 255) := by
  decide +kernel

/-- One witness per clause: L = 0 and L = 2; either paging byte; the sum of V25; the end marker of V26. -/
theorem witness_GenoutRefusals :
    (([] : List Byte).length < 3 ∧ ([0x01, 0x00] : List Byte).length < 3) ∧
    ((0x01 : Byte) ≠ 0 ∨ (0x00 : Byte) ≠ 0) ∧ ((0x00 : Byte) ≠ 0 ∨ (0x02 : Byte) ≠ 0) ∧
    sum8 (encode (.genout 0 [0x01, 0x00, 0x00] 0x45 0x03)) 1 (3 + 3) ≠ 0x45 ∧
    (sum8 (encode (.genout 0 [0x01, 0x00, 0x00] 0x44 0x04)) 1 (3 + 3) = 0x44 ∧ (0x04 : Byte) ≠ 0x03) := by decide

/-- A candidate of each verdict, the shortest and the longest among them. -/
theorem witness_FrameChecksInPrintedOrder :
    [ [0x03, 0, 0x40, 0, 0, 0], [0x02, 0, 0x41, 0, 0, 0], [0x02, 0, 0x40, 0, 0x40, 0x03],
      [0x02, 0, 0x40, 3, 1, 1, 0, 0x45, 3], [0x02, 0, 0x40, 3, 1, 0, 0, 0x45, 3], [0x02, 0, 0x40, 3, 1, 0, 0, 0x44, 4],
      shortFrame, nearlyFull ++ [0x03] ].map (fun f => (frameVerdict f, f.length == (byteAt f 3).toNat + 6)) =
    [ (some (.badStart, 0x03, 0), true), (some (.unsupportedPacketType, 0x41, 0), true), (some (.lengthTooShort, 0, 0), true),
      (some (.multiPageUnsupported, 1, 0), true), (some (.checksumMismatch, 0x44, 0x45), true), (some (.badEnd, 4, 0), true),
      (none, true), (none, true) ] := by decide +kernel

theorem witness_GenoutRunsEveryRecord :
    ∀ i ∈ [Instr.insRms rmsb, .rec51 [0x01, 0x02, 0x03], .recOther 0x99 [], .ins (zeros 10)], i.isRecord = true := by
  decide +kernel

/-- V51 (three bytes that do not fit), V44 (one byte), and the largest payload. -/
theorem witness_GenoutTruncation :
    (∀ i ∈ [Instr.insRms rmsb], i.isRecord = true) ∧ unfitting [0x31, 0x68, 0x00] = true ∧
    ([Instr.insRms rmsb].flatMap encode ++ [0x31, 0x68, 0x00]).length ≤ 252 ∧
    unfitting [0x31] = true ∧ unfitting ([0x33, 0xFB] ++ zeros 250) = true ∧
    (([] : List Instr).flatMap encode ++ ([0x33, 0xFB] ++ zeros 250)).length ≤ 252 := by decide +kernel

theorem witness_FrameItemsShape :
    (Instr.genout 0 [] 0 0).isFrame = true ∧ (Instr.genout 0 (zeros 255) 0 3).isFrame = true ∧
    (Instr.pktOther 0 0x41 [] 0 0).isFrame = true := by decide +kernel

/-- An accepted frame whose items 0 and 2 are an INS and an RMS sample, of bodies of the minimum length; between them a body that
holds a byte 0x32 is data (R189). -/
theorem witness_SamplesComeFromGoodRecords :
    (nextOf (exec (acceptedFrame 0 1
        (recordBytes 0x31 (zeros 104) ++ recordBytes 0x33 [0x32, 0x2C] ++ recordBytes 0x32 rmsb)) State.reset)).map
      (fun t => t.out.map Item.channel) = some [.ins, .err, .rms] := by decide +kernel

theorem witness_InsDecodes : 104 ≤ (zeros 104).length ∧ 104 ≤ (zeros 255).length := by decide +kernel

theorem witness_InsTooShort : (zeros 103).length < 104 ∧ ([] : List Byte).length < 104 := by decide +kernel

theorem witness_InsRmsDecodes : 44 ≤ (zeros 44).length ∧ 44 ≤ (zeros 255).length := by decide +kernel

theorem witness_InsRmsTooShort : (zeros 43).length < 44 ∧ ([] : List Byte).length < 44 := by decide +kernel

theorem witness_DispatchRunsDecodedRecord :
    (zeros 2).length ≤ 255 ∧
    decode .subRecord (recordBytes 0x31 (zeros 2) ++ [0xFF]) = .ok (.ins (zeros 2), [0xFF]) ∧
    decode .subRecord (recordBytes 0x32 (zeros 2) ++ []) = .ok (.insRms (zeros 2), []) ∧
    decode .subRecord (recordBytes 0x33 [] ++ []) = .ok (.rec51 [], []) ∧
    decode .subRecord (recordBytes 0x34 [] ++ []) = .ok (.recOther 0x34 [], []) := by decide

theorem witness_RecordsGiveOneItem :
    (Instr.ins []).format = .subRecord ∧ (Instr.insRms []).format = .subRecord ∧ (Instr.rec51 []).format = .subRecord ∧
    (Instr.recOther 7 []).format = .subRecord := by decide

/-- Two states that differ in all but `now`. -/
theorem witness_ExecDependsOnNowOnly :
    State.reset.now = (holding probeFrame 0).now ∧ State.reset.buf ≠ (holding probeFrame 0).buf ∧
    State.reset.input ≠ (holding probeFrame 0).input := by decide

/-- Both cases: the start marker and another byte. -/
theorem witness_HuntByte :
    State.reset.buf = [] ∧ (State.reset.setInput [.byte 0x02 5]).input = .byte 0x02 5 :: [] ∧
    (State.reset.setInput [.byte 0x03 5, .reset]).input = .byte 0x03 5 :: [.reset] := ⟨rfl, rfl, rfl⟩

/-- One byte held; the length byte arriving; 259 of 261 bytes held, a start marker arriving. -/
theorem witness_CollectByte :
    [([0x02], 0x00), ([0x02, 0x00, 0x40], 0x00), (nearlyFull.dropLast, 0x02)].map (fun (f, b) =>
      (Memory.ofBytes f != [] && decide ((Memory.ofBytes f).fill < 261) &&
        ((Memory.ofBytes f ++ [((Memory.ofBytes f).fill, b)] : Memory).read 3).all
          (fun len => (Memory.ofBytes f).fill + 1 != len.toNat + 6) : Bool)) = [true, true, true] := by decide +kernel

/-- GENOUT and PKT_OTHER, the shortest and the longest frame. -/
theorem witness_StepRunsDecodedFrame :
    [ (probeFrame, Instr.genout 0 [0x01, 0x00, 0x00, 0x33, 0x00] 0x79 0x03), ([0x02, 0, 0x41, 0, 0, 0], .pktOther 0 0x41 [] 0 0),
      (nearlyFull ++ [0x03], .genout 0 ([0x01, 0x00, 0x00, 0x33, 0xFA] ++ zeros 250) 0x6D 0x03) ].map (fun (f, i) =>
        (i.isFrame && (holding f 0).buf.wf && (holding f 0).input == [.byte (f.getLastD 0) 0] &&
          (holding f 0).buf.bytes ++ [f.getLastD 0] == encode i : Bool)) = [true, true, true] := by decide +kernel

theorem witness_CompletionEmptiesBuffer :
    (holding probeFrame 0).Inv ∧ (holding probeFrame 0).buf ≠ [] ∧ (holding probeFrame 0).input = [.byte 0x03 0] ∧
    ((holding probeFrame 0).buf.bytes ++ [0x03])[3]? = some 0x05 ∧
    (holding probeFrame 0).buf.fill + 1 = (0x05 : Byte).toNat + 6 := by decide +kernel

theorem witness_BadStartComesFirst :
    4 ≤ ([0x03, 0, 0x40, 3, 1, 0, 0, 0x44, 3] : List Byte).length ∧
    byteAt [0x03, 0, 0x40, 3, 1, 0, 0, 0x44, 3] 0 ≠ 0x02 := by decide

/-- A state that meets R21 and a step that emits an error. -/
theorem witness_EmittedCodes :
    (holding probeFrame 0).Inv ∧ nextOf (step (holding probeFrame 0)) = some (State.reset.emit (.err 8 0x33 0)) := by
  decide +kernel

theorem witness_ResetEvent : (State.reset.setInput [.reset]).input = .reset :: [] := by decide

theorem witness_IdleKeepsState : State.reset.input = [] := by decide

/-- Empty, three bytes, four bytes and 260 bytes held; the next byte of each. -/
theorem witness_StepKeepsBufferInvariant :
    State.reset.Inv ∧ (holding (shortFrame.take 4) 0).Inv ∧ (holding (shortFrame.take 5) 0).Inv ∧
    (holding (nearlyFull ++ [0x03]) 0).Inv ∧
    ((nextOf (step (holding (shortFrame.take 4) 0))).map (fun t => t.buf.fill)) = some 4 := by decide +kernel

theorem witness_StepNeverStops : State.reset.Inv ∧ (holding probeFrame 0).Inv ∧ (holding (nearlyFull ++ [0x03]) 0).Inv := by
  decide +kernel

/-- The first clause: a step that emits a sample. The second: the ends of both decoders' ranges, and a value of TS_WIDTH bits
whatever TS_WIDTH is. -/
theorem witness_TimestampsKeepWidth :
    (nextOf (step (holding (buildFrame 0 1 (recordBytes 0x32 rmsb)) 0))).map (fun t => t.out.map Item.channel) = some [.rms] ∧
    (2 ^ Config.tsWidth - 1 < 2 ^ Config.tsWidth ∧
      (State.reset.setNow (BitVec.ofNat Config.tsWidth (2 ^ Config.tsWidth - 1))).now =
        BitVec.ofNat Config.tsWidth (2 ^ Config.tsWidth - 1)) ∧
    104 ≤ (zeros 104).length ∧ 44 ≤ (zeros 44).length :=
  ⟨by decide +kernel, ⟨Nat.sub_lt (Nat.two_pow_pos _) Nat.one_pos, rfl⟩, by decide +kernel, by decide +kernel⟩

/-- V61 with `now` 0 at the last byte of `RMSF` and 1 on the timestamp input before it: a step that emits a sample, with 0. -/
theorem witness_SamplesCarryNow :
    ((holding (buildFrame 0 1 (recordBytes 0x32 rmsb)) 0).setNow 1).input = .byte 0x03 0 :: [] ∧
    (nextOf (step ((holding (buildFrame 0 1 (recordBytes 0x32 rmsb)) 0).setNow 1))).map
      (fun t => t.out.map Item.captureTs) = some [some 0] := by decide +kernel

theorem witness_OutputHistoryIsNotRead :
    nextOf (step (holding probeFrame 0)) = some (State.reset.emit (.err 8 0x33 0)) := by decide +kernel

theorem witness_StepTakesOneEvent :
    nextOf (step (holding probeFrame 0)) = some (State.reset.emit (.err 8 0x33 0)) ∧
    nextOf (step State.reset) = some State.reset := by decide +kernel

/-- `PF` byte by byte with a rising `now`: its stream without the last byte. -/
def probeStream : List (Byte × Timestamp) := probeFrame.dropLast.zip ((List.range 10).map (BitVec.ofNat Config.tsWidth))

/-- `PF` byte by byte, and the start of another frame behind it. -/
theorem witness_WholeFrameByteByByte :
    (Instr.genout 0 [0x01, 0x00, 0x00, 0x33, 0x00] 0x79 0x03).isFrame = true ∧ State.reset.buf = [] ∧
    (probeStream ++ [(0x03, 10)]).map (fun (e : Byte × Timestamp) => e.1) = encode (.genout 0 [0x01, 0x00, 0x00, 0x33, 0x00] 0x79 0x03) ∧
    (State.reset.setInput (byteEvents (probeStream ++ [(0x03, 10)]) ++ [.byte 0x02 11])).input =
      byteEvents (probeStream ++ [(0x03, 10)]) ++ [.byte 0x02 11] :=
  ⟨by decide, rfl, by decide +kernel, rfl⟩

/-- V14's noise. -/
theorem witness_NoiseIsDiscarded :
    State.reset.buf = [] ∧ (∀ e ∈ ([(0xFF, 1), (0x00, 2), (0x03, 3)] : List (Byte × Timestamp)), e.1 ≠ 0x02) ∧
    (State.reset.setInput (byteEvents [(0xFF, 1), (0x00, 2), (0x03, 3)] ++ [.byte 0x02 4])).input =
      byteEvents [(0xFF, 1), (0x00, 2), (0x03, 3)] ++ [.byte 0x02 4] := ⟨rfl, by simp, rfl⟩

/-- The clauses at their edges: empty, 260 and 261 bytes held. -/
theorem witness_AppendStoresOneByte :
    (Memory.wf [] = true ∧ Memory.fill [] < 261) ∧
    ((Memory.ofBytes nearlyFull).wf = true ∧ (Memory.ofBytes nearlyFull).fill < 261) ∧
    ((Memory.ofBytes (nearlyFull ++ [0x03])).wf = true ∧ (Memory.ofBytes (nearlyFull ++ [0x03])).fill = 261) := by
  decide +kernel

/-- Each way a step treats the buffer: appends, leaves, empties. -/
theorem witness_StepNeverOverwrites :
    [step (holding (shortFrame.take 4) 0), step State.reset, step (holding probeFrame 0)].map
      (fun r => (nextOf r).map (fun t => t.buf)) =
    [some (Memory.ofBytes (shortFrame.take 4)), some [], some []] := by decide +kernel

theorem witness_OverflowStopsByName :
    261 ≤ (Memory.ofBytes (nearlyFull ++ [0x03])).fill ∧
    ({ State.reset with buf := Memory.ofBytes (nearlyFull ++ [0x03]), input := [.byte 0 0] } : State).input = .byte 0 0 :: [] := by
  decide +kernel

/-- A frame, and sub-records with no body and with the largest body a payload can hold. -/
theorem witness_FetchWordRunsInstruction :
    decodeTableWord 56 0x02004000000000 = some (.genout 0 [] 0 0) ∧
    (decodeTableWord 16 0x3100 = some (.ins []) ∧ (Instr.ins []).counted.length ≤ 250) ∧
    (decodeTableWord 16 0x07FA = some (.recOther 7 (zeros 250)) ∧ (Instr.recOther 7 (zeros 250)).counted.length ≤ 250) := by
  decide +kernel

end Sys2Proof.Tests
end

section
/-!
PROOFS. A meaning answers its state with items appended behind the output (60_exceptions.md R241, R242), and so a step touches
the pending events only by taking the oldest (00_scope.md R10).
-/

namespace Sys2Proof.Machine

/-- What the demultiplexer appends, whatever the type byte: one item (R185). -/
theorem dispatch_eq_emitAll (t : Byte) (body : List Byte) (s : State) :
    ∃ items, dispatch t body s = .next (s.emitAll items) := by
  obtain ⟨item, he, -⟩ := dispatch_cases t body s
  exact ⟨[item], he⟩

/-- The walk completes and only appends items; no bound on the fuel is needed, as a walk cut short also only appends. -/
theorem walkFrom_eq_emitAll (p : List Byte) (fuel pos : Nat) (s : State) :
    ∃ items, walkFrom p fuel pos s = .next (s.emitAll items) := by
  induction fuel generalizing pos s with
  | zero => exact ⟨[], by rw [walkFrom, State.emitAll_nil]⟩
  | succ fuel ih =>
    by_cases hpos : pos < p.length
    · rcases walkFrom_succ_cases p fuel pos s hpos with ⟨-, hw⟩ | ⟨_, _, _, -, -, hw⟩ | ⟨t, l, tail, -, -, -, hw⟩
      · exact ⟨_, hw⟩
      · exact ⟨_, hw⟩
      · obtain ⟨first, hfirst⟩ := dispatch_eq_emitAll t (tail.take l.toNat) s
        obtain ⟨later, hlater⟩ := ih (pos + 2 + l.toNat) (s.emitAll first)
        exact ⟨first ++ later, by rw [hw, hfirst, andThen_next, hlater, State.emitAll_emitAll]⟩
    · exact ⟨[], by rw [walkFrom_end p _ pos s (Nat.le_of_not_lt hpos), State.emitAll_nil]⟩

/-- What GENOUT can do (R160): it raises one error, or walks the payload behind a transmission number and two zero paging bytes. -/
theorem execGenout_cases (status : Byte) (region : List Byte) (checksum etx : Byte) (s : State) :
    (∃ e aux0 aux1, execGenout status region checksum etx s = .next (s.raise e aux0 aux1)) ∨
    (∃ txn payload, region = txn :: 0 :: 0 :: payload ∧ execGenout status region checksum etx s = walk payload s) := by
  unfold execGenout
  split
  next txn page maxPage payload =>
    dsimp only
    split_ifs with hpage hsum hetx
    · exact .inl ⟨_, _, _, rfl⟩
    · exact .inl ⟨_, _, _, rfl⟩
    · exact .inl ⟨_, _, _, rfl⟩
    · obtain ⟨rfl, rfl⟩ : page = 0 ∧ maxPage = 0 := by simpa only [not_or, not_not] using hpage
      exact .inr ⟨txn, payload, rfl, rfl⟩
  next => exact .inl ⟨_, _, _, rfl⟩

/-- Every instruction completes from every state, and its whole effect is a list of items appended to the output (R241, R244). -/
theorem exec_eq_emitAll (i : Instr) (s : State) : ∃ items, exec i s = .next (s.emitAll items) := by
  cases i with
  | genout status region checksum etx =>
    rcases execGenout_cases status region checksum etx s with ⟨_, _, _, he⟩ | ⟨_, payload, -, he⟩
    · exact ⟨_, he⟩
    · obtain ⟨items, hw⟩ := walkFrom_eq_emitAll payload payload.length 0 s
      exact ⟨items, he.trans hw⟩
  | pktOther status packetType region checksum etx => exact ⟨_, rfl⟩
  | ins body =>
    rcases execIns_cases body s with ⟨-, he⟩ | ⟨-, _, -, he⟩
    · exact ⟨_, he⟩
    · exact ⟨_, he⟩
  | insRms body =>
    rcases execInsRms_cases body s with ⟨-, he⟩ | ⟨-, _, -, he⟩
    · exact ⟨_, he⟩
    · exact ⟨_, he⟩
  | rec51 body => exact ⟨_, rfl⟩
  | recOther recordType body => exact ⟨_, rfl⟩

/-- What processing candidate bytes can do (R160): run the decoded instruction, raise BadStart, or refuse bytes that are no whole
frame. -/
theorem runFrame_cases (f : List Byte) (s : State) :
    (∃ i rest, decode .outerFrame f = .ok (i, rest) ∧ runFrame f s = exec i s) ∨
    (∃ found, decode .outerFrame f = .error (.badStart found) ∧ runFrame f s = .next (s.raise .badStart found 0)) ∨
    (decode .outerFrame f = .error .incomplete ∧ runFrame f s = .refused .incompleteFrame) := by
  unfold runFrame
  match decode .outerFrame f with
  | .ok (i, rest) => exact .inl ⟨i, rest, rfl, rfl⟩
  | .error (.badStart found) => exact .inr (.inl ⟨found, rfl, rfl⟩)
  | .error .incomplete => exact .inr (.inr ⟨rfl, rfl⟩)

/-- When processing candidate bytes has a next state, it is the state before with items appended. -/
theorem runFrame_eq_next {f : List Byte} {s t : State} (h : runFrame f s = .next t) : ∃ items, t = s.emitAll items := by
  rcases runFrame_cases f s with ⟨i, _, -, hr⟩ | ⟨found, -, hr⟩ | ⟨-, hr⟩
  · obtain ⟨items, he⟩ := exec_eq_emitAll i s
    exact ⟨items, Host.Outcome.next.inj (h.symm.trans (hr.trans he))⟩
  · exact ⟨_, Host.Outcome.next.inj (h.symm.trans hr)⟩
  · cases h.symm.trans hr

/-- Settles O46, along the rows of the synchronizer's transition table: only the completing byte appends anything, and that is what
its frame's instruction appends. -/
theorem stepTakesOneEvent : Obligations.StepTakesOneEvent := by
  intro s t h
  rcases step_cases s with ⟨hin, hs⟩ | ⟨rest, hin, hs⟩ |
      ⟨b, now, rest, hin, ⟨-, -, hs⟩ | ⟨-, -, hs⟩ | ⟨-, -, hs⟩ | ⟨-, -, ⟨-, hs⟩ | ⟨-, hs⟩⟩⟩
  case inr.inr.inr.inr.inl =>  -- an append past the last address has no next state
    cases hs.symm.trans h
  case inr.inr.inr.inr.inr.inr =>  -- the byte that completes a candidate
    obtain ⟨v, hv, ht⟩ := andThen_eq_next.mp (hs.symm.trans h)
    obtain ⟨items, rfl⟩ := runFrame_eq_next hv
    cases ht
    simp [hin]
  all_goals  -- the rows that emit nothing
    cases hs.symm.trans h
    simp [hin]

end Sys2Proof.Machine
end

section
/-!
PROOFS. The frame buffer's invariants (10_state.md R21) as a statement about the bytes held, and that every row of the
synchronizer's transition table keeps them.
-/

namespace Sys2Proof.Machine

/-- R21 said of the bytes held: they begin with the start marker, and are too few to be the frame that their length byte announces. -/
def PartialFrame (bs : List Byte) : Prop :=
  (bs ≠ [] → bs[0]? = some Config.stx) ∧ ∀ len, bs[3]? = some len → bs.length < len.toNat + 6

/-- A length byte announces at most 261 bytes, so a partial frame leaves an address free (R50). -/
theorem PartialFrame.length_lt {bs : List Byte} (h : PartialFrame bs) : bs.length < Config.bufCapacity := by
  show bs.length < 261
  by_cases h3 : 3 < bs.length
  · have hlt := h.2 bs[3] (List.getElem?_eq_getElem h3)
    have hbyte := bs[3].isLt
    omega
  · omega

/-- The announced size of the candidate, read off the bytes held (R82). -/
theorem Memory.ofBytes_frameSize_eq_some (bs : List Byte) (size : Nat) :
    (Memory.ofBytes bs).frameSize = some size ↔ ∃ len, bs[3]? = some len ∧ len.toNat + 6 = size := by
  rw [Memory.frameSize, Memory.ofBytes_read]
  exact Option.map_eq_some_iff

/-- A state meets R21 exactly when its buffer is the canonical form of a partial frame. -/
theorem State.inv_iff (s : State) : s.Inv ↔ ∃ bs, s.buf = Memory.ofBytes bs ∧ PartialFrame bs := by
  constructor
  · rintro ⟨hwf, -, hstart, hsize⟩
    obtain ⟨hbuf, -⟩ := (Memory.wf_iff _).mp hwf
    rw [hbuf] at hstart hsize
    refine ⟨s.buf.bytes, hbuf, fun hne => ?_, fun len hlen => ?_⟩
    · simpa using hstart (by simpa using hne)
    · simpa using hsize _ ((Memory.ofBytes_frameSize_eq_some _ _).mpr ⟨len, hlen, rfl⟩)
  · rintro ⟨bs, hbuf, hpartial⟩
    have hlen := hpartial.length_lt
    obtain ⟨hstart, hsize⟩ := hpartial
    unfold State.Inv
    rw [hbuf]
    refine ⟨Memory.ofBytes_wf bs hlen.le, by simpa using hlen, by simpa using hstart, fun size hs => ?_⟩
    obtain ⟨len, hl, rfl⟩ := (Memory.ofBytes_frameSize_eq_some _ _).mp hs
    simpa using hsize len hl

theorem partialFrame_nil : PartialFrame [] := by simp [PartialFrame]

theorem partialFrame_stx : PartialFrame [Config.stx] := by simp [PartialFrame]

/-- A byte that does not complete the candidate leaves a partial frame. The fourth byte, the length byte itself, never completes
one, since a frame has at least six bytes. -/
theorem PartialFrame.append {bs : List Byte} {b : Byte} (h : PartialFrame bs) (hne : bs ≠ [])
    (hc : (Memory.ofBytes (bs ++ [b])).complete = false) : PartialFrame (bs ++ [b]) := by
  obtain ⟨hstart, hsize⟩ := h
  have hpos : 0 < bs.length := List.length_pos_of_ne_nil hne
  refine ⟨fun _ => by rw [List.getElem?_append_left hpos]; exact hstart hne, fun len hlen => ?_⟩
  have hnot : (bs ++ [b]).length ≠ len.toNat + 6 := fun he => by
    simp [(Memory.ofBytes_complete _).mpr ⟨len, hlen, he⟩] at hc
  rw [List.length_append, List.length_singleton] at hnot ⊢
  by_cases h3 : 3 < bs.length
  · rw [List.getElem?_append_left h3] at hlen
    have hlt := hsize len hlen
    omega
  · omega

/-- An empty buffer meets R21, whatever the rest of the state. -/
theorem State.inv_of_buf_nil {s : State} (h : s.buf = []) : s.Inv :=
  s.inv_iff.mpr ⟨[], h, partialFrame_nil⟩

/-- Settles O40, along the rows of the synchronizer's transition table: the buffer stays as it was, becomes empty, holds the start
marker alone, or holds a partial frame of one byte more. -/
theorem stepKeepsBufferInvariant : Obligations.StepKeepsBufferInvariant := by
  intro s t hinv h
  rcases step_cases s with ⟨-, hs⟩ | ⟨rest, -, hs⟩ |
      ⟨b, now, rest, -, ⟨hb, -, hs⟩ | ⟨-, rfl, hs⟩ | ⟨-, -, hs⟩ | ⟨hb, -, ⟨hc, hs⟩ | ⟨-, hs⟩⟩⟩
  · -- idle
    cases hs.symm.trans h
    exact hinv
  · -- reset
    cases hs.symm.trans h
    exact State.inv_of_buf_nil rfl
  · -- a byte dropped in HUNT
    cases hs.symm.trans h
    exact State.inv_of_buf_nil hb
  · -- the start marker in HUNT
    cases hs.symm.trans h
    exact (State.inv_iff _).mpr ⟨[Config.stx], rfl, partialFrame_stx⟩
  · -- an append past the last address has no next state
    cases hs.symm.trans h
  · -- a byte stored in COLLECT
    cases hs.symm.trans h
    obtain ⟨bs, hbuf, hpartial⟩ := s.inv_iff.mp hinv
    have hstored : s.buf ++ [(s.buf.fill, b)] = Memory.ofBytes (bs ++ [b]) := by
      rw [hbuf, Memory.ofBytes_fill, Memory.ofBytes_append]
    rw [State.setBuf_buf, hstored] at hc
    exact (State.inv_iff _).mpr ⟨bs ++ [b], hstored, hpartial.append (fun he => hb (by simp [hbuf, he])) hc⟩
  · -- the byte that completes a candidate
    obtain ⟨v, -, hclear⟩ := andThen_eq_next.mp (hs.symm.trans h)
    cases hclear
    exact State.inv_of_buf_nil rfl

/-- Settles O42: an empty buffer is in HUNT and meets R21. -/
theorem resetStateMeetsInvariant : Obligations.ResetStateMeetsInvariant :=
  ⟨State.inv_of_buf_nil rfl, rfl, (State.mode_eq_hunt _).mpr rfl, rfl⟩

end Sys2Proof.Machine
end

section
/-!
PROOFS. What a meaning emits is fixed by the instruction and the value on the timestamp input, which stamps every sample
(44_record_decoders.md R204); the record of earlier outputs plays no part in it, nor in a step (10_state.md R20, R35).
-/

namespace Sys2Proof.Machine

/-- Every sample among the items carries the timestamp `now` (R204). -/
def StampedWith (now : Timestamp) (items : List Item) : Prop :=
  ∀ item ∈ items, ∀ ts ∈ item.captureTs, ts = now

/-- From every state with `now` on the timestamp input, `f` appends the same items, and every sample among them carries `now`. -/
def EmitsAt (now : Timestamp) (f : State → Result) : Prop :=
  ∃ items, StampedWith now items ∧ ∀ s : State, s.now = now → f s = .next (s.emitAll items)

theorem StampedWith.nil (now : Timestamp) : StampedWith now [] := by simp [StampedWith]

theorem StampedWith.append {now : Timestamp} {xs ys : List Item} (hx : StampedWith now xs) (hy : StampedWith now ys) :
    StampedWith now (xs ++ ys) := by
  intro item hi
  rcases List.mem_append.mp hi with hi | hi
  · exact hx item hi
  · exact hy item hi

theorem stampedWith_singleton (now : Timestamp) (item : Item) :
    StampedWith now [item] ↔ ∀ ts ∈ item.captureTs, ts = now := by
  simp [StampedWith]

/-! ### Ways to emit, and their composition -/

theorem EmitsAt.next (now : Timestamp) : EmitsAt now .next :=
  ⟨[], .nil now, fun s _ => by rw [State.emitAll_nil]⟩

/-- An ERR item carries no timestamp (R33). -/
theorem EmitsAt.raise (now : Timestamp) (e : ErrorKind) (aux0 aux1 : Byte) :
    EmitsAt now (fun s => .next (s.raise e aux0 aux1)) :=
  ⟨[.err e.code aux0 aux1], (stampedWith_singleton _ _).mpr (by simp [Item.captureTs]), fun _ _ => rfl⟩

theorem EmitsAt.ite {now : Timestamp} {f g : State → Result} (c : Prop) [Decidable c] (hf : EmitsAt now f)
    (hg : EmitsAt now g) : EmitsAt now (fun s => if c then f s else g s) := by
  by_cases hc : c
  · simpa only [if_pos hc] using hf
  · simpa only [if_neg hc] using hg

theorem EmitsAt.andThen {now : Timestamp} {f g : State → Result} (hf : EmitsAt now f) (hg : EmitsAt now g) :
    EmitsAt now (fun s => andThen (f s) g) := by
  obtain ⟨xs, hxs, hf⟩ := hf
  obtain ⟨ys, hys, hg⟩ := hg
  refine ⟨xs ++ ys, hxs.append hys, fun s hs => ?_⟩
  simp only [hf s hs, andThen_next, hg (s.emitAll xs) hs, State.emitAll_emitAll]

/-! ### The meanings -/

/-- An INS item carries the value on the timestamp input (R31, R204). -/
theorem readInsSample_captureTs {r : List Byte} {now : Timestamp} {x : InsSample} (h : readInsSample r now = some x) :
    x.captureTs = now := by
  obtain ⟨-, -, -, -, -, -, -, -, -, -, -, -, -, -, -, -, -, -, -, -, -, hts⟩ := readInsSample_eq_some.mp h
  exact hts

/-- An RMS item carries the value on the timestamp input (R32, R204). -/
theorem readRmsSample_captureTs {r : List Byte} {now : Timestamp} {x : RmsSample} (h : readRmsSample r now = some x) :
    x.captureTs = now := by
  obtain ⟨-, -, -, -, -, -, -, -, -, -, -, -, -, hts⟩ := readRmsSample_eq_some.mp h
  exact hts

theorem execIns_emitsAt (now : Timestamp) (body : List Byte) : EmitsAt now (execIns body) := by
  by_cases hlen : body.length < 104
  · have hshort : execIns body = fun s => .next (s.raise .recordTooShort Config.recIns (byteOfNat body.length)) :=
      funext fun _ => if_pos hlen
    exact hshort ▸ .raise now _ _ _
  · obtain ⟨x, hx⟩ := readInsSample_isSome (r := recordBytes Config.recIns body) now (by simp [recordBytes]; omega)
    have hstamp : StampedWith now [.ins x] :=
      (stampedWith_singleton _ _).mpr (by simpa [Item.captureTs] using readInsSample_captureTs hx)
    exact ⟨_, hstamp, fun s hs => by simp only [execIns, if_neg hlen, hs, hx, State.emit_eq_emitAll]⟩

theorem execInsRms_emitsAt (now : Timestamp) (body : List Byte) : EmitsAt now (execInsRms body) := by
  by_cases hlen : body.length < 44
  · have hshort : execInsRms body = fun s => .next (s.raise .recordTooShort Config.recInsRms (byteOfNat body.length)) :=
      funext fun _ => if_pos hlen
    exact hshort ▸ .raise now _ _ _
  · obtain ⟨x, hx⟩ := readRmsSample_isSome (r := recordBytes Config.recInsRms body) now (by simp [recordBytes]; omega)
    have hstamp : StampedWith now [.rms x] :=
      (stampedWith_singleton _ _).mpr (by simpa [Item.captureTs] using readRmsSample_captureTs hx)
    exact ⟨_, hstamp, fun s hs => by simp only [execInsRms, if_neg hlen, hs, hx, State.emit_eq_emitAll]⟩

theorem dispatch_emitsAt (now : Timestamp) (t : Byte) (body : List Byte) : EmitsAt now (dispatch t body) :=
  .ite _ (execIns_emitsAt now body) <| .ite _ (execInsRms_emitsAt now body) <|
    .ite _ (.raise now _ _ _) (.raise now _ _ _)

theorem walkFrom_emitsAt (now : Timestamp) (p : List Byte) (fuel pos : Nat) : EmitsAt now (walkFrom p fuel pos) := by
  induction fuel generalizing pos with
  | zero => exact .next now
  | succ fuel ih =>
    change EmitsAt now (fun s => walkFrom p (fuel + 1) pos s)
    simp only [walkFrom]
    match p.drop pos with
    | [] => exact .next now
    | [_] => exact .raise now _ _ _
    | t :: l :: tail => exact .ite _ (.raise now _ _ _) ((dispatch_emitsAt now t _).andThen (ih _))

/-- GENOUT (R160): a region too short for the paging bytes is refused, else the checks in order, else the walk. -/
theorem execGenout_emitsAt (now : Timestamp) (status : Byte) (region : List Byte) (checksum etx : Byte) :
    EmitsAt now (execGenout status region checksum etx) :=
  match region with
  | [] | [_] | [_, _] => .raise now _ _ _
  | _ :: _ :: _ :: payload =>
    .ite _ (.raise now _ _ _) <| .ite _ (.raise now _ _ _) <| .ite _ (.raise now _ _ _) <|
      walkFrom_emitsAt now payload payload.length 0

theorem exec_emitsAt (now : Timestamp) (i : Instr) : EmitsAt now (exec i) := by
  cases i with
  | genout status region checksum etx => exact execGenout_emitsAt now status region checksum etx
  | pktOther status packetType region checksum etx => exact .raise now _ _ _
  | ins body => exact execIns_emitsAt now body
  | insRms body => exact execInsRms_emitsAt now body
  | rec51 body => exact .raise now _ _ _
  | recOther recordType body => exact .raise now _ _ _

/-- Candidate bytes either emit by the timestamp input alone or, when they are no whole frame, are refused from every state. -/
theorem runFrame_emitsAt_or_refused (f : List Byte) :
    (∀ now, EmitsAt now (runFrame f)) ∨ ∀ s, runFrame f s = .refused .incompleteFrame := by
  unfold runFrame
  match decode .outerFrame f with
  | .ok (i, _) => exact .inl fun now => exec_emitsAt now i
  | .error (.badStart found) => exact .inl fun now => .raise now _ _ _
  | .error .incomplete => exact .inr fun _ => rfl

/-- Every sample that processing candidate bytes appends carries the value on the timestamp input (R204). -/
theorem runFrame_stampedWith {f : List Byte} {s t : State} (h : runFrame f s = .next t) :
    ∃ items, t = s.emitAll items ∧ StampedWith s.now items := by
  rcases runFrame_emitsAt_or_refused f with hemits | hrefused
  · obtain ⟨items, hstamp, hrun⟩ := hemits s.now
    exact ⟨items, Host.Outcome.next.inj (h.symm.trans (hrun s rfl)), hstamp⟩
  · cases h.symm.trans (hrefused s)

/-! ### Timestamps -/

/-- What a step emits carries the timestamp of the byte it takes: only the byte that completes a candidate emits anything. -/
theorem step_stampedWith {s t : State} (h : step s = .next t) :
    ∃ items, t.out = s.out ++ items ∧
      (items = [] ∨ ∃ b now, s.input.head? = some (.byte b now) ∧ StampedWith now items) := by
  rcases step_cases s with ⟨-, hs⟩ | ⟨rest, -, hs⟩ |
      ⟨b, now, rest, hin, ⟨-, -, hs⟩ | ⟨-, -, hs⟩ | ⟨-, -, hs⟩ | ⟨-, -, ⟨-, hs⟩ | ⟨-, hs⟩⟩⟩
  case inr.inr.inr.inr.inl =>  -- an append past the last address has no next state
    cases hs.symm.trans h
  case inr.inr.inr.inr.inr.inr =>  -- the byte that completes a candidate
    obtain ⟨v, hrun, hclear⟩ := andThen_eq_next.mp (hs.symm.trans h)
    obtain ⟨items, rfl, hstamp⟩ := runFrame_stampedWith hrun
    cases hclear
    exact ⟨items, rfl, .inr ⟨b, now, by rw [hin, List.head?_cons], hstamp⟩⟩
  all_goals  -- the rows that emit nothing
    cases hs.symm.trans h
    exact ⟨[], by simp, .inl rfl⟩

/-- Settles O43: a step's samples are stamped by the byte taken, and both decoders copy the timestamp input, whose every value of
TS_WIDTH bits is kept. -/
theorem timestampsKeepWidth : Obligations.TimestampsKeepWidth := by
  refine ⟨fun s t h => ?_, fun v body s hv hnow => ⟨fun hlen => ?_, fun hlen => ?_⟩⟩
  · obtain ⟨items, hout, rfl | ⟨b, now, hin, hstamp⟩⟩ := step_stampedWith h
    · exact ⟨[], hout, by simp⟩
    · refine ⟨items, hout, fun item hitem ts hts => ⟨ts.isLt, b, ?_⟩⟩
      rw [hstamp item hitem ts hts, hin]
  · rcases execIns_cases body s with ⟨hshort, -⟩ | ⟨-, x, hx, hexec⟩
    · omega
    · exact ⟨x, hexec, by rw [readInsSample_captureTs hx, hnow, BitVec.toNat_ofNat, Nat.mod_eq_of_lt hv]⟩
  · rcases execInsRms_cases body s with ⟨hshort, -⟩ | ⟨-, x, hx, hexec⟩
    · omega
    · exact ⟨x, hexec, by rw [readRmsSample_captureTs hx, hnow, BitVec.toNat_ofNat, Nat.mod_eq_of_lt hv]⟩

/-! ### The record of earlier outputs -/

/-- The state with more items handed out earlier, in front of those it records. -/
def State.withPast (s : State) (past : List Item) : State := { s with out := past ++ s.out }

@[simp] theorem State.withPast_buf (s : State) (past : List Item) : (s.withPast past).buf = s.buf := rfl
@[simp] theorem State.withPast_now (s : State) (past : List Item) : (s.withPast past).now = s.now := rfl
@[simp] theorem State.withPast_input (s : State) (past : List Item) : (s.withPast past).input = s.input := rfl
@[simp] theorem State.withPast_out (s : State) (past : List Item) : (s.withPast past).out = past ++ s.out := rfl
@[simp] theorem State.withPast_mode (s : State) (past : List Item) : (s.withPast past).mode = s.mode := rfl

theorem State.withPast_emitAll (s : State) (past items : List Item) :
    (s.withPast past).emitAll items = (s.emitAll items).withPast past := by
  simp [State.withPast, State.emitAll]

/-- The state with nothing handed out so far. -/
def State.clearOut (s : State) : State := { s with out := [] }

theorem State.clearOut_withPast (s : State) (past : List Item) : s.clearOut.withPast past = { s with out := past } := by
  simp [State.clearOut, State.withPast]

/-- `f` commutes with handing out more items earlier: whether it goes on and how, it does not read the record of outputs. -/
def OutputBlind (f : State → Result) : Prop :=
  ∀ (past : List Item) (s : State), f (s.withPast past) = andThen (f s) (fun t => .next (t.withPast past))

theorem OutputBlind.next : OutputBlind .next := fun _ _ => rfl

theorem OutputBlind.andThen {f g : State → Result} (hf : OutputBlind f) (hg : OutputBlind g) :
    OutputBlind (fun s => andThen (f s) g) := by
  intro past s
  calc Machine.andThen (f (s.withPast past)) g
      = Machine.andThen (f s) (fun t => g (t.withPast past)) := by rw [hf past s, andThen_assoc]; rfl
    _ = Machine.andThen (f s) (fun t => Machine.andThen (g t) (fun u => .next (u.withPast past))) := by simp only [hg past]
    _ = Machine.andThen (Machine.andThen (f s) g) (fun u => .next (u.withPast past)) := (andThen_assoc _ _ _).symm

/-- What is emitted by the timestamp input alone is emitted whatever was handed out before. -/
theorem outputBlind_of_emitsAt {f : State → Result} (h : ∀ now, EmitsAt now f) : OutputBlind f := by
  intro past s
  obtain ⟨items, -, hf⟩ := h s.now
  rw [hf s rfl, hf (s.withPast past) rfl, andThen_next, State.withPast_emitAll]

theorem runFrame_outputBlind (f : List Byte) : OutputBlind (runFrame f) := by
  rcases runFrame_emitsAt_or_refused f with hemits | hrefused
  · exact outputBlind_of_emitsAt hemits
  · intro past s
    rw [hrefused, hrefused, andThen_refused]

theorem storeByte_outputBlind (b : Byte) : OutputBlind (fun s => s.storeByte b) := by
  intro past s
  simp only [State.storeByte, State.withPast_buf]
  cases s.buf.append b with
  | some m => rfl
  | none => rfl

theorem frameComplete_outputBlind : OutputBlind frameComplete := by
  intro past s
  have hclear : OutputBlind (fun t => .next t.clearBuf) := fun _ _ => rfl
  by_cases hc : s.buf.complete = true
  · have hpast : (s.withPast past).buf.complete = true := hc
    simp only [frameComplete, if_pos hc, if_pos hpast]
    exact (runFrame_outputBlind s.buf.bytes).andThen hclear past s
  · have hpast : ¬ (s.withPast past).buf.complete = true := hc
    simp only [frameComplete, if_neg hc, if_neg hpast, andThen_next]

theorem huntByte_outputBlind (b : Byte) : OutputBlind (huntByte b) := by
  intro past s
  unfold huntByte
  split
  · exact storeByte_outputBlind b past s
  · rfl

theorem byteEvent_outputBlind (b : Byte) (now : Timestamp) : OutputBlind (byteEvent b now) := by
  intro past s
  simp only [byteEvent, State.withPast_mode]
  cases s.mode with
  | hunt => exact huntByte_outputBlind b past (s.setNow now)
  | collect => exact (storeByte_outputBlind b).andThen frameComplete_outputBlind past (s.setNow now)

theorem step_outputBlind : OutputBlind step := by
  intro past s
  simp only [step, nextEvent, State.withPast_input]
  match s.input with
  | [] => rfl
  | .reset :: _ => rfl
  | .byte b now :: rest => exact byteEvent_outputBlind b now past (s.setInput rest)

/-- Settles O45: the step from `s` and the step from another record of outputs are both the step from an empty record, with that
record put in front; the items are what the step from the empty record emits. -/
theorem outputHistoryIsNotRead : Obligations.OutputHistoryIsNotRead := by
  intro s t history h
  have hs : s.clearOut.withPast s.out = s := s.clearOut_withPast s.out
  rw [← hs, step_outputBlind] at h
  obtain ⟨u, hu, ht⟩ := andThen_eq_next.mp h
  cases ht
  refine ⟨u.out, rfl, ?_⟩
  rw [← s.clearOut_withPast history, step_outputBlind, hu]
  rfl

end Sys2Proof.Machine
end

section
/-!
PROOFS. The frame buffer's memory (20_memory.md R50, R59): what an address reads as after an append, the three things a step does
to the buffer, and the append past the last address.
-/

namespace Sys2Proof.Machine

/-! ### Reads after an append -/

/-- The cells listed first answer a read; those behind them are read only at addresses that the first do not list. -/
theorem Memory.read_append (m n : Memory) (a : Nat) : Memory.read (m ++ n) a = (m.read a).or (n.read a) := by
  induction m with
  | nil => rfl
  | cons c m ih =>
    obtain ⟨x, v⟩ := c
    by_cases hx : x = a <;> simp [Memory.read, hx, ih]

theorem Memory.read_singleton_same (a : Nat) (b : Byte) : Memory.read [(a, b)] a = some b := if_pos rfl

theorem Memory.read_singleton_of_ne {x a : Nat} (b : Byte) (h : x ≠ a) : Memory.read [(x, b)] a = none := if_neg h

/-- A byte held stays held when cells are put behind it (R59). -/
theorem Memory.read_append_of_eq_some {m : Memory} {a : Nat} {v : Byte} (n : Memory) (h : m.read a = some v) :
    Memory.read (m ++ n) a = some v := by
  rw [Memory.read_append, h, Option.some_or]

/-- In canonical form the address `|buf|` holds no byte yet (R50). -/
theorem Memory.read_fill_of_wf {m : Memory} (h : m.wf = true) : m.read m.fill = none := by
  obtain ⟨hm, -⟩ := m.wf_iff.mp h
  rw [hm, Memory.ofBytes_fill, Memory.ofBytes_read]
  exact List.getElem?_eq_none le_rfl

/-- Settles O49: the stored cell is the only one listed for `|buf|`, and answers a read of no other address. -/
theorem appendStoresOneByte : Obligations.AppendStoresOneByte := by
  intro m b hwf
  refine ⟨fun hfree => ?_, fun hfull => if_neg (by rw [hfull]; exact lt_irrefl _)⟩
  refine ⟨m ++ [(m.fill, b)], Memory.append_eq_some.mpr ⟨hfree, rfl⟩, List.length_append, ?_, fun a ha => ?_⟩
  · rw [Memory.read_append, Memory.read_fill_of_wf hwf, Option.none_or, Memory.read_singleton_same]
  · rw [Memory.read_append, Memory.read_singleton_of_ne b ha.symm, Option.or_none]

/-! ### The buffer over a step -/

/-- What a step can do to the buffer, along the rows of the synchronizer's transition table (R59, R149). -/
theorem step_buf_cases {s t : State} (h : step s = .next t) :
    t.buf = [] ∨ t.buf = s.buf ∨
      ∃ b now, s.input.head? = some (.byte b now) ∧ t.buf = s.buf ++ [(s.buf.fill, b)] := by
  rcases step_cases s with ⟨-, hs⟩ | ⟨rest, -, hs⟩ |
      ⟨b, now, rest, hin, ⟨-, -, hs⟩ | ⟨hb, -, hs⟩ | ⟨-, -, hs⟩ | ⟨-, -, ⟨-, hs⟩ | ⟨-, hs⟩⟩⟩
  · -- idle
    cases hs.symm.trans h
    exact .inr (.inl rfl)
  · -- reset
    cases hs.symm.trans h
    exact .inl rfl
  · -- a byte dropped in HUNT
    cases hs.symm.trans h
    exact .inr (.inl rfl)
  · -- the start marker in HUNT, appended to the empty buffer
    cases hs.symm.trans h
    exact .inr (.inr ⟨b, now, by rw [hin, List.head?_cons], by rw [hb]; rfl⟩)
  · -- an append past the last address has no next state
    cases hs.symm.trans h
  · -- a byte stored in COLLECT
    cases hs.symm.trans h
    exact .inr (.inr ⟨b, now, by rw [hin, List.head?_cons], rfl⟩)
  · -- the byte that completes a candidate
    obtain ⟨v, -, hclear⟩ := andThen_eq_next.mp (hs.symm.trans h)
    cases hclear
    exact .inl rfl

/-- Settles O50: an append, the only change that keeps anything, puts its cell behind those held. -/
theorem stepNeverOverwrites : Obligations.StepNeverOverwrites := by
  intro s t h
  have hbuf := step_buf_cases h
  refine ⟨hbuf, ?_⟩
  rcases hbuf with hempty | hsame | ⟨b, now, -, happend⟩
  · exact .inl hempty
  · exact .inr fun a v hv => by rw [hsame, hv]
  · exact .inr fun a v hv => by rw [happend, Memory.read_append_of_eq_some _ hv]

/-- Settles O51: of the rows of the transition table, the only one with a byte pending and no address free is the stop. -/
theorem overflowStopsByName : Obligations.OverflowStopsByName := by
  intro s b now rest hfull hin
  have hheld : s.buf ≠ [] := fun hnil => by simp [hnil, Memory.fill] at hfull
  rcases step_cases s with ⟨hidle, -⟩ | ⟨_, hreset, -⟩ |
      ⟨_, _, _, -, ⟨hhunt, -, -⟩ | ⟨hhunt, -, -⟩ | ⟨-, -, hs⟩ | ⟨-, hfree, -⟩⟩
  · cases hin.symm.trans hidle
  · cases hin.symm.trans hreset
  · exact absurd hhunt hheld
  · exact absurd hhunt hheld
  · exact hs
  · exact absurd hfree hfull.not_gt

end Sys2Proof.Machine
end

section
/-!
PROOFS. The decoder and the encoder (30_encoding.md): what a decode can answer, that it inverts the encoder and is inverted by it,
and that it selects the first fitting row of the opcode table.
-/

namespace Sys2Proof

/-! ### What a decode can answer -/

theorem decode_recordBytes (t : Byte) (body rest : List Byte) (h : body.length ≤ 255) :
    decode .subRecord (recordBytes t body ++ rest) = .ok (selectRecord t body, rest) := by
  simp only [decode, recordBytes, List.cons_append, decodeSubRecord, byteOfNat_toNat _ h, List.length_append]
  rw [if_neg (by omega), List.take_left, List.drop_left]

/-- Bytes that hold a whole sub-record are its encoding and what follows it (R90, R93). -/
theorem recordBytes_take_append_drop (t l : Byte) (tail : List Byte) (h : l.toNat ≤ tail.length) :
    recordBytes t (tail.take l.toNat) ++ tail.drop l.toNat = t :: l :: tail := by
  simp [recordBytes, Nat.min_eq_left h]

theorem decode_frameBytes (status ty : Byte) (region : List Byte) (cs ex : Byte) (rest : List Byte)
    (h : region.length ≤ 255) :
    decode .outerFrame (frameBytes status ty region cs ex ++ rest) = .ok (selectFrame status ty region cs ex, rest) := by
  simp only [decode, frameBytes, List.cons_append, List.append_assoc, decodeFrame, ne_eq, not_true_eq_false, if_false,
    byteOfNat_toNat _ h, List.drop_left, List.take_left, List.nil_append]

/-- Bytes that hold a whole frame are its encoding and what follows it (R81, R82). -/
theorem exists_frameBytes_append (status ty l : Byte) (tail : List Byte) (h : l.toNat + 2 ≤ tail.length) :
    ∃ region cs ex rest, region.length = l.toNat ∧
      Config.stx :: status :: ty :: l :: tail = frameBytes status ty region cs ex ++ rest := by
  have htrailer : 2 ≤ (tail.drop l.toNat).length := by rw [List.length_drop]; omega
  match hdrop : tail.drop l.toNat with
  | cs :: ex :: rest =>
    have hregion : (tail.take l.toNat).length = l.toNat := by rw [List.length_take]; omega
    have htail : tail.take l.toNat ++ cs :: ex :: rest = tail := by rw [← hdrop, List.take_append_drop]
    exact ⟨tail.take l.toNat, cs, ex, rest, hregion, by simp [frameBytes, hregion, htail]⟩
  | [_] => simp [hdrop] at htrailer
  | [] => simp [hdrop] at htrailer

/-- What decoding a sub-record can answer: the selected row when the bytes hold a whole one, else that they do not (R90, R93). -/
theorem decode_subRecord_cases (bs : List Byte) :
    (∃ t body rest, body.length ≤ 255 ∧ bs = recordBytes t body ++ rest ∧
      decode .subRecord bs = .ok (selectRecord t body, rest)) ∨
    ((∀ t l tail, bs = t :: l :: tail → tail.length < l.toNat) ∧ decode .subRecord bs = .error .incomplete) := by
  match bs with
  | [] => exact .inr ⟨by simp, rfl⟩
  | [_] => exact .inr ⟨by simp, rfl⟩
  | t :: l :: tail =>
    by_cases hshort : tail.length < l.toNat
    · refine .inr ⟨?_, if_pos hshort⟩
      rintro _ _ _ ⟨⟩
      exact hshort
    · have hbody : (tail.take l.toNat).length ≤ 255 := by
        have := l.isLt
        rw [List.length_take]
        omega
      have hbytes := recordBytes_take_append_drop t l tail (Nat.le_of_not_lt hshort)
      exact .inl ⟨t, tail.take l.toNat, tail.drop l.toNat, hbody, hbytes.symm,
        hbytes ▸ decode_recordBytes _ _ _ hbody⟩

/-- What decoding a frame can answer: the selected row when the bytes hold a whole frame, the wrong start marker when four bytes
begin with one, else that there are too few bytes (R81, R82). -/
theorem decode_outerFrame_cases (bs : List Byte) :
    (∃ status ty region cs ex rest, region.length ≤ 255 ∧ bs = frameBytes status ty region cs ex ++ rest ∧
      decode .outerFrame bs = .ok (selectFrame status ty region cs ex, rest)) ∨
    (∃ x a b c tail, x ≠ Config.stx ∧ bs = x :: a :: b :: c :: tail ∧
      decode .outerFrame bs = .error (.badStart x)) ∨
    ((∀ x a b l tail, bs = x :: a :: b :: l :: tail → x = Config.stx ∧ tail.length < l.toNat + 2) ∧
      decode .outerFrame bs = .error .incomplete) := by
  match bs with
  | [] => exact .inr (.inr ⟨by simp, rfl⟩)
  | [_] => exact .inr (.inr ⟨by simp, rfl⟩)
  | [_, _] => exact .inr (.inr ⟨by simp, rfl⟩)
  | [_, _, _] => exact .inr (.inr ⟨by simp, rfl⟩)
  | x :: status :: ty :: l :: tail =>
    by_cases hx : x = Config.stx
    · subst hx
      by_cases hwhole : l.toNat + 2 ≤ tail.length
      · obtain ⟨region, cs, ex, rest, hregion, hbytes⟩ := exists_frameBytes_append status ty l tail hwhole
        have hfits : region.length ≤ 255 := by
          have := l.isLt
          omega
        exact .inl ⟨status, ty, region, cs, ex, rest, hfits, hbytes, hbytes ▸ decode_frameBytes _ _ _ _ _ _ hfits⟩
      · refine .inr (.inr ⟨?_, ?_⟩)
        · rintro _ _ _ _ _ ⟨⟩
          exact ⟨rfl, Nat.lt_of_not_le hwhole⟩
        · have htrailer : (tail.drop l.toNat).length < 2 := by rw [List.length_drop]; omega
          simp only [decode, decodeFrame, ne_eq, not_true_eq_false, if_false]
          match hdrop : tail.drop l.toNat with
          | [] => rfl
          | [_] => rfl
          | _ :: _ :: _ => simp [hdrop] at htrailer
    · exact .inr (.inl ⟨x, status, ty, l, tail, hx, rfl, if_pos hx⟩)

/-- What decodes as a sub-record is the selected row at the head of its own bytes (R90, R93). -/
theorem decode_subRecord_eq_ok {bs rest : List Byte} {i : Instr} :
    decode .subRecord bs = .ok (i, rest) ↔
      ∃ t body, body.length ≤ 255 ∧ bs = recordBytes t body ++ rest ∧ i = selectRecord t body := by
  constructor
  · intro h
    rcases decode_subRecord_cases bs with ⟨t, body, _, hlen, hbs, hd⟩ | ⟨-, hd⟩
    · cases hd.symm.trans h
      exact ⟨t, body, hlen, hbs, rfl⟩
    · cases hd.symm.trans h
  · rintro ⟨t, body, hlen, rfl, rfl⟩
    exact decode_recordBytes t body rest hlen

/-- What decodes as a frame is the selected row at the head of its own bytes (R81, R82). -/
theorem decode_outerFrame_eq_ok {bs rest : List Byte} {i : Instr} :
    decode .outerFrame bs = .ok (i, rest) ↔
      ∃ status ty region cs ex, region.length ≤ 255 ∧ bs = frameBytes status ty region cs ex ++ rest ∧
        i = selectFrame status ty region cs ex := by
  constructor
  · intro h
    rcases decode_outerFrame_cases bs with
      ⟨status, ty, region, cs, ex, _, hlen, hbs, hd⟩ | ⟨_, _, _, _, _, -, -, hd⟩ | ⟨-, hd⟩
    · cases hd.symm.trans h
      exact ⟨status, ty, region, cs, ex, hlen, hbs, rfl⟩
    · cases hd.symm.trans h
    · cases hd.symm.trans h
  · rintro ⟨status, ty, region, cs, ex, hlen, rfl, rfl⟩
    exact decode_frameBytes status ty region cs ex rest hlen

/-! ### The round trips -/

/-- A well-formed sub-record is the row that its type byte selects (R95). -/
theorem exists_eq_selectRecord {i : Instr} (h : WellFormed i = true) (hf : i.format = .subRecord) :
    ∃ t body, body.length ≤ 255 ∧ i = selectRecord t body := by
  have hlen := Laws.counted_length_le i h
  cases i with
  | genout => cases hf
  | pktOther => cases hf
  | ins body => exact ⟨Config.recIns, body, hlen, rfl⟩
  | insRms body => exact ⟨Config.recInsRms, body, hlen, rfl⟩
  | rec51 body => exact ⟨Config.rec51, body, hlen, rfl⟩
  | recOther t body =>
    obtain ⟨-, ⟨hins, hrms⟩, h51⟩ : _ ∧ (t ≠ Config.recIns ∧ t ≠ Config.recInsRms) ∧ t ≠ Config.rec51 := by
      simpa [WellFormed, Instr.typeFits] using h
    exact ⟨t, body, hlen, by rw [selectRecord, if_neg hins, if_neg hrms, if_neg h51]⟩

/-- A well-formed frame is the row that its packet type byte selects (R83). -/
theorem exists_eq_selectFrame {i : Instr} (h : WellFormed i = true) (hf : i.format = .outerFrame) :
    ∃ status ty region cs ex, region.length ≤ 255 ∧ i = selectFrame status ty region cs ex := by
  have hlen := Laws.counted_length_le i h
  cases i with
  | genout status region cs ex => exact ⟨status, Config.pktGenout, region, cs, ex, hlen, rfl⟩
  | pktOther status ty region cs ex =>
    obtain ⟨-, hty⟩ : _ ∧ ty ≠ Config.pktGenout := by simpa [WellFormed, Instr.typeFits] using h
    exact ⟨status, ty, region, cs, ex, hlen, (if_neg hty).symm⟩
  | ins => cases hf
  | insRms => cases hf
  | rec51 => cases hf
  | recOther => cases hf

/-- Settles O1: a well-formed instruction is the row selected by its type byte, and decoding selects by that byte again. -/
theorem decodeInvertsEncode : Obligations.DecodeInvertsEncode := by
  intro i rest h
  cases hf : i.format with
  | outerFrame =>
    obtain ⟨status, ty, region, cs, ex, hlen, rfl⟩ := exists_eq_selectFrame h hf
    rw [encode_selectFrame, decode_frameBytes _ _ _ _ _ _ hlen]
  | subRecord =>
    obtain ⟨t, body, hlen, rfl⟩ := exists_eq_selectRecord h hf
    rw [encode_selectRecord, decode_recordBytes _ _ _ hlen]

/-- Settles O2: what decodes is a selected row, at the head of its own bytes. -/
theorem encodeInvertsDecode : Obligations.EncodeInvertsDecode := by
  intro fmt bs rest i h
  cases fmt with
  | outerFrame =>
    obtain ⟨status, ty, region, cs, ex, hlen, rfl, rfl⟩ := decode_outerFrame_eq_ok.mp h
    rw [encode_selectFrame]
    exact ⟨rfl, selectFrame_wellFormed _ _ _ _ _ hlen, selectFrame_format _ _ _ _ _⟩
  | subRecord =>
    obtain ⟨t, body, hlen, rfl, rfl⟩ := decode_subRecord_eq_ok.mp h
    rw [encode_selectRecord]
    exact ⟨rfl, selectRecord_wellFormed _ _ hlen, selectRecord_format _ _⟩

/-! ### Whole units and the opcode table -/

/-- Settles O4: each clause picks its answer out of the decoders' answers; the others contradict the bytes given. -/
theorem decodeAnswersExactlyOnWholeUnits : Obligations.DecodeAnswersExactlyOnWholeUnits := by
  refine ⟨fun bs => ?_, fun bs => ?_, fun bs x => ?_, fun bs x h => ?_⟩
  · rcases decode_subRecord_cases bs with ⟨t, body, rest, hlen, hbs, hd⟩ | ⟨hshort, hd⟩
    · refine iff_of_true ⟨_, hd⟩ ⟨t, byteOfNat body.length, body ++ rest, hbs, ?_⟩
      rw [byteOfNat_toNat _ hlen, List.length_append]
      omega
    · refine iff_of_false (fun ⟨_, h⟩ => nomatch hd.symm.trans h) fun ⟨t, l, tail, hbs, hwhole⟩ => ?_
      exact absurd (hshort t l tail hbs) hwhole.not_gt
  · rcases decode_outerFrame_cases bs with
      ⟨status, ty, region, cs, ex, rest, hlen, hbs, hd⟩ | ⟨_, _, _, _, _, hx, rfl, hd⟩ | ⟨hshort, hd⟩
    · refine iff_of_true ⟨_, hd⟩ ⟨status, ty, byteOfNat region.length, region ++ [cs, ex] ++ rest, hbs, ?_⟩
      rw [byteOfNat_toNat _ hlen, List.length_append, List.length_append, List.length_cons, List.length_singleton]
      omega
    · refine iff_of_false (fun ⟨_, h⟩ => nomatch hd.symm.trans h) fun ⟨_, _, _, _, hbs, _⟩ => ?_
      exact hx (List.cons.inj hbs).1
    · refine iff_of_false (fun ⟨_, h⟩ => nomatch hd.symm.trans h) fun ⟨_, _, l, tail, hbs, hwhole⟩ => ?_
      exact absurd (hshort _ _ _ l tail hbs).2 hwhole.not_gt
  · rcases decode_outerFrame_cases bs with
      ⟨status, ty, region, cs, ex, rest, hlen, rfl, hd⟩ | ⟨y, a, b, c, tail, hy, rfl, hd⟩ | ⟨hshort, hd⟩
    · refine iff_of_false (fun h => nomatch hd.symm.trans h) fun ⟨hx, _, _, _, _, hbs⟩ => ?_
      exact hx (List.cons.inj hbs).1.symm
    · constructor
      · intro h
        cases hd.symm.trans h
        exact ⟨hy, a, b, c, tail, rfl⟩
      · rintro ⟨-, _, _, _, _, ⟨⟩⟩
        exact hd
    · refine iff_of_false (fun h => nomatch hd.symm.trans h) fun ⟨hx, _, _, _, _, hbs⟩ => ?_
      exact hx (hshort _ _ _ _ _ hbs).1
  · rcases decode_subRecord_cases bs with ⟨_, _, _, -, -, hd⟩ | ⟨-, hd⟩
    · cases hd.symm.trans h
    · cases hd.symm.trans h

/-- A byte with mask 0 takes no part in a match, and need not be there (R95). -/
@[simp] theorem maskedMatch_zero_cons (mask mtch bs : List Byte) :
    maskedMatch (0#8 :: mask) (0#8 :: mtch) bs = maskedMatch mask mtch bs.tail := by
  cases bs <;> simp [maskedMatch]

/-- A byte with mask 0xFF is compared in full (R95). -/
@[simp] theorem maskedMatch_full_cons (mask mtch : List Byte) (v b : Byte) (bs : List Byte) :
    maskedMatch (255#8 :: mask) (v :: mtch) (b :: bs) = (b == v && maskedMatch mask mtch bs) := by
  rw [maskedMatch, show (255#8 : Byte) = BitVec.allOnes 8 from rfl, BitVec.and_allOnes]

@[simp] theorem maskedMatch_nil (mtch bs : List Byte) : maskedMatch [] mtch bs = true := by
  simp [maskedMatch]

/-- The table's row for bytes that begin with the start marker is the one the packet type byte selects (R83, R95). -/
theorem tableMnemonic_outerFrame (status ty : Byte) (tail region : List Byte) (cs ex : Byte) :
    tableMnemonic .outerFrame (Config.stx :: status :: ty :: tail) = some (selectFrame status ty region cs ex).mnemonic := by
  by_cases hty : ty = 64#8
  · simp [tableMnemonic, opcodeTable, selectFrame, Instr.mnemonic, hty]
  · simp [tableMnemonic, opcodeTable, selectFrame, Instr.mnemonic, hty]

/-- The table's row for a sub-record is the one the record type byte selects (R95). -/
theorem tableMnemonic_subRecord (t : Byte) (tail body : List Byte) :
    tableMnemonic .subRecord (t :: tail) = some (selectRecord t body).mnemonic := by
  by_cases hins : t = 49#8
  · simp [tableMnemonic, opcodeTable, selectRecord, Instr.mnemonic, hins]
  by_cases hrms : t = 50#8
  · simp [tableMnemonic, opcodeTable, selectRecord, Instr.mnemonic, hrms]
  by_cases h51 : t = 51#8
  · simp [tableMnemonic, opcodeTable, selectRecord, Instr.mnemonic, h51]
  · simp [tableMnemonic, opcodeTable, selectRecord, Instr.mnemonic, hins, hrms, h51]

/-- Settles O3: the decoder selects by the byte that the table's rows compare. -/
theorem decodeFollowsOpcodeTable : Obligations.DecodeFollowsOpcodeTable := by
  intro fmt bs rest i h
  cases fmt with
  | outerFrame =>
    obtain ⟨status, ty, region, cs, ex, -, rfl, rfl⟩ := decode_outerFrame_eq_ok.mp h
    exact tableMnemonic_outerFrame status ty _ region cs ex
  | subRecord =>
    obtain ⟨t, body, -, rfl, rfl⟩ := decode_subRecord_eq_ok.mp h
    exact tableMnemonic_subRecord t _ body

/-- Settles O5: each word is the encoding of its instruction, with nothing or one byte behind it. -/
theorem writtenOutWordsDecode : Obligations.WrittenOutWordsDecode :=
  ⟨decode_frameBytes 0x00 0x40 [0x01, 0x00, 0x00] 0x44 0x03 [] (by decide),
    decode_frameBytes 0xA5 0x41 [0x7E] 0x45 0x03 [0xFF] (by decide),
    decode_recordBytes 0x31 [0xAA, 0xBB] [] (by decide),
    decode_recordBytes 0x32 [] [] (by decide),
    decode_recordBytes 0x33 [0xAA, 0xBB] [0x01] (by decide),
    decode_recordBytes 0x07 [0xAA] [] (by decide)⟩

/-! ### A payload is whole sub-records and a rest -/

/-- Bytes are none, no whole sub-record, or a whole well-formed sub-record and fewer bytes behind it (R93). -/
theorem nil_or_unfitting_or_record (bs : List Byte) :
    bs = [] ∨ Machine.unfitting bs = true ∨
      ∃ i rest, i.isRecord = true ∧ bs = encode i ++ rest ∧ rest.length + 2 ≤ bs.length := by
  rcases decode_subRecord_cases bs with ⟨t, body, rest, hlen, rfl, -⟩ | ⟨hshort, -⟩
  · refine .inr (.inr ⟨selectRecord t body, rest, ?_, by rw [encode_selectRecord], ?_⟩)
    · rw [Instr.isRecord, selectRecord_wellFormed t body hlen, selectRecord_format]
      rfl
    · simp only [recordBytes, List.cons_append, List.length_cons, List.length_append]
      omega
  · match bs with
    | [] => exact .inl rfl
    | [_] => exact .inr (.inl rfl)
    | t :: l :: tail => exact .inr (.inl (decide_eq_true (hshort t l tail rfl)))

/-- Settles O18, by induction on the number of bytes: each whole sub-record at the head takes at least two of them. -/
theorem everyPayloadSplits : Obligations.EveryPayloadSplits := by
  intro payload
  induction hn : payload.length using Nat.strong_induction_on generalizing payload with
  | _ n ih =>
    rcases nil_or_unfitting_or_record payload with hnil | hun | ⟨i, rest, hrec, hpay, hlen⟩
    · exact ⟨[], payload, by simp, by simp, .inl hnil, by simp⟩
    · exact ⟨[], payload, by simp, by simp, .inr hun, by simp⟩
    · obtain ⟨records, tail, hrecs, hrest, htail, hcount⟩ := ih rest.length (by omega) rest rfl
      refine ⟨i :: records, tail, ?_, ?_, htail, ?_⟩
      · exact List.forall_mem_cons.mpr ⟨hrec, hrecs⟩
      · rw [hpay, hrest, List.flatMap_cons, List.append_assoc]
      · rw [List.length_cons]
        omega

end Sys2Proof
end

section
/-!
PROOFS. The two record layouts (30_encoding.md R91, R92): a body laid out from field values reads back field by field.
-/

namespace Sys2Proof.Machine

/-- A field of a layout: its size in bytes and a value of that many bytes. -/
abbrev Field := (n : Nat) × BitVec (8 * n)

/-- The bytes of fields one behind the other, each most significant byte first (R94, R128). -/
def fieldBytes (fields : List Field) : List Byte := fields.flatMap (fun f => beBytes f.1 f.2.toNat)

/-- The fields stand in `s` one behind the other from offset `a` on. -/
def ReadsFields (s : List Byte) : Nat → List Field → Prop
  | _, [] => True
  | a, f :: fields => memRead s a f.1 = some f.2.toNat ∧ ReadsFields s (a + f.1) fields

/-- The bytes of a value read back as the value, whatever stands around them (R128). -/
theorem memRead_beBytes (before after : List Byte) {n : Nat} (v : BitVec (8 * n)) :
    memRead (before ++ (beBytes n v.toNat ++ after)) before.length n = some v.toNat := by
  have hv : v.toNat < 256 ^ n := by simpa [Nat.pow_mul] using v.isLt
  refine memRead_eq_some.mpr ⟨?_, ?_⟩
  · rw [List.length_append, List.length_append, beBytes_length]
    omega
  · rw [List.drop_left, List.take_left' (beBytes_length n _), beNat_beBytes, Nat.mod_eq_of_lt hv]

/-- Fields laid out in some bytes read back from where they stand, whatever stands around them. -/
theorem readsFields_fieldBytes (fields : List Field) (before after : List Byte) :
    ReadsFields (before ++ (fieldBytes fields ++ after)) before.length fields := by
  induction fields generalizing before with
  | nil => trivial
  | cons f fields ih =>
    have hsplit : fieldBytes (f :: fields) ++ after = beBytes f.1 f.2.toNat ++ (fieldBytes fields ++ after) := by
      rw [fieldBytes, List.flatMap_cons, List.append_assoc]
      rfl
    rw [hsplit]
    refine ⟨memRead_beBytes before _ f.2, ?_⟩
    simpa using ih (before ++ beBytes f.1 f.2.toNat)

/-- The fields of a type 49 body in the order of R91. -/
def insFields (x : InsSample) : List Field :=
  [⟨2, x.week⟩, ⟨4, x.timeMs⟩, ⟨1, x.alignStatus⟩, ⟨1, x.gnssStatus⟩, ⟨8, x.lat⟩, ⟨8, x.lon⟩, ⟨8, x.alt⟩, ⟨4, x.vN⟩, ⟨4, x.vE⟩,
    ⟨4, x.vD⟩, ⟨4, x.speed⟩, ⟨8, x.roll⟩, ⟨8, x.pitch⟩, ⟨8, x.heading⟩, ⟨8, x.track⟩, ⟨4, x.wx⟩, ⟨4, x.wy⟩, ⟨4, x.wz⟩, ⟨4, x.ax⟩,
    ⟨4, x.ay⟩, ⟨4, x.az⟩]

/-- The fields of a type 50 body in the order of R92. -/
def rmsFields (x : RmsSample) : List Field :=
  [⟨2, x.week⟩, ⟨4, x.timeMs⟩, ⟨1, x.alignStatus⟩, ⟨1, x.gnssStatus⟩, ⟨4, x.posRmsN⟩, ⟨4, x.posRmsE⟩, ⟨4, x.posRmsD⟩,
    ⟨4, x.velRmsN⟩, ⟨4, x.velRmsE⟩, ⟨4, x.velRmsD⟩, ⟨4, x.rollRms⟩, ⟨4, x.pitchRms⟩, ⟨4, x.headingRms⟩]

theorem fieldBytes_insFields (x : InsSample) : fieldBytes (insFields x) = insBody x := by
  unfold insBody
  simp only [fieldBytes, insFields, List.flatMap_cons, List.flatMap_nil, List.append_nil, List.append_assoc]

theorem fieldBytes_rmsFields (x : RmsSample) : fieldBytes (rmsFields x) = rmsBody x := by
  unfold rmsBody
  simp only [fieldBytes, rmsFields, List.flatMap_cons, List.flatMap_nil, List.append_nil, List.append_assoc]

@[simp] theorem insBody_length (x : InsSample) : (insBody x).length = 104 := by
  unfold insBody
  simp only [List.length_append, beBytes_length]

@[simp] theorem rmsBody_length (x : RmsSample) : (rmsBody x).length = 44 := by
  unfold rmsBody
  simp only [List.length_append, beBytes_length]

/-- The fields of a sub-record whose body starts with them read back from sub-record offset 2 on (R91, R92). -/
theorem readsFields_recordBytes (t : Byte) (fields : List Field) (extra : List Byte) :
    ReadsFields (recordBytes t (fieldBytes fields ++ extra)) 2 fields :=
  readsFields_fieldBytes fields [t, byteOfNat (fieldBytes fields ++ extra).length] extra

/-- Settles O9: the offsets of R91 are the running sums of the field sizes, from 2 on. -/
theorem insLayoutOffsets : Obligations.InsLayoutOffsets := by
  intro x extra
  have hreads := readsFields_recordBytes 0x31 (insFields x) extra
  rw [fieldBytes_insFields] at hreads
  refine ⟨insBody_length x, ?_⟩
  simpa only [ReadsFields, insFields, Nat.reduceAdd, and_true] using hreads

/-- Settles O10: the offsets of R92 are the running sums of the field sizes, from 2 on. -/
theorem rmsLayoutOffsets : Obligations.RmsLayoutOffsets := by
  intro x extra
  have hreads := readsFields_recordBytes 0x32 (rmsFields x) extra
  rw [fieldBytes_rmsFields] at hreads
  refine ⟨rmsBody_length x, ?_⟩
  simpa only [ReadsFields, rmsFields, Nat.reduceAdd, and_true] using hreads

end Sys2Proof.Machine
end

section
/-!
PROOFS. Placing an instruction where the next step runs it (30_encoding.md R95, R98, R99; log entries 8 and 9): built frames pass
every check, a held candidate runs at its last byte, and a sub-record alone in a payload runs as itself.
-/

namespace Sys2Proof.Machine

/-! ### Built frames -/

/-- An accepted frame's effect is the walk of its payload (R168). -/
theorem exec_acceptedFrame (status txn : Byte) (payload : List Byte) (s : State) :
    exec (acceptedFrame status txn payload) s = walk payload s := by
  simp [acceptedFrame, exec, execGenout]

theorem decode_buildFrame (status txn : Byte) (payload : List Byte) (h : payload.length ≤ 252) :
    decode .outerFrame (buildFrame status txn payload) = .ok (acceptedFrame status txn payload, []) := by
  have hregion : (txn :: 0 :: 0 :: payload).length ≤ 255 := by
    simp only [List.length_cons]
    omega
  have hdecode := decode_frameBytes status Config.pktGenout (txn :: 0 :: 0 :: payload)
    (frameChecksum status Config.pktGenout (txn :: 0 :: 0 :: payload)) Config.etx [] hregion
  rw [List.append_nil] at hdecode
  exact hdecode

/-- Settles O6: the fields a frame is built from are those the checks ask for, so that only the walk is left. -/
theorem builtFramesAreAccepted : Obligations.BuiltFramesAreAccepted :=
  fun status txn payload s h => ⟨decode_buildFrame status txn payload h, exec_acceptedFrame status txn payload s⟩

/-! ### A sub-record alone in a payload -/

/-- The demultiplexer runs the row that the type byte selects (R185, R208). -/
theorem dispatch_eq_exec_selectRecord (t : Byte) (body : List Byte) (s : State) :
    dispatch t body s = exec (selectRecord t body) s := by
  unfold dispatch selectRecord
  split_ifs
  · rfl
  · rfl
  · rfl
  · rfl

/-- The walk of one whole sub-record is its dispatch (R185, R186). -/
theorem walk_recordBytes (t : Byte) (body : List Byte) (s : State) (h : body.length ≤ 255) :
    walk (recordBytes t body) s = dispatch t body s := by
  obtain ⟨item, hitem, -⟩ := dispatch_cases t body s
  have hl : (byteOfNat body.length).toNat = body.length := byteOfNat_toNat _ h
  have hlen : (recordBytes t body).length = body.length + 1 + 1 := rfl
  rw [walk, hlen]
  rcases walkFrom_succ_cases (recordBytes t body) (body.length + 1) 0 s (by omega) with
    ⟨⟨_, hd⟩, -⟩ | ⟨_, _, _, hd, hshort, -⟩ | ⟨_, _, _, hd, -, -, hw⟩
  · cases hd
  · cases hd
    omega
  · cases hd
    rw [hw, hl, List.take_length, hitem, andThen_next, walkFrom_end _ _ _ _ (by omega)]

/-! ### A held candidate -/

/-- A held candidate: all its bytes but the last are in the buffer, and the last is the next to arrive (log entry 8). -/
theorem State.holdFrame_append_singleton (s : State) (held : List Byte) (last : Byte) :
    s.holdFrame (held ++ [last]) = (s.setBuf (Memory.ofBytes held)).setInput (.byte last s.now :: s.input) := by
  simp [State.holdFrame, List.getLastD_eq_getLast?]

/-- A held candidate is processed in the next step, which then empties the buffer (R144, R145): of the rows of the synchronizer's
transition table, the bytes held leave only the completing one. -/
theorem step_holdFrame {held : List Byte} {last len : Byte} (hlen : (held ++ [last])[3]? = some len)
    (hsize : (held ++ [last]).length = len.toNat + 6) (s : State) :
    step (s.holdFrame (held ++ [last])) =
      andThen (runFrame (held ++ [last]) (s.setBuf (Memory.ofBytes (held ++ [last])))) (fun t => .next t.clearBuf) := by
  have hbyte := len.isLt
  have hheld : held.length = len.toNat + 5 := by simpa using hsize
  have hne : Memory.ofBytes held ≠ [] := fun hnil => by
    rw [Memory.ofBytes_eq_nil] at hnil
    simp [hnil] at hheld
  have hstored : Memory.ofBytes held ++ [((Memory.ofBytes held).fill, last)] = Memory.ofBytes (held ++ [last]) := by
    rw [Memory.ofBytes_append, Memory.ofBytes_fill]
  have hcomplete := (Memory.ofBytes_complete (held ++ [last])).mpr ⟨len, hlen, hsize⟩
  rw [State.holdFrame_append_singleton]
  rcases step_cases ((s.setBuf (Memory.ofBytes held)).setInput (.byte last s.now :: s.input)) with
      ⟨hin, -⟩ | ⟨_, hin, -⟩ |
      ⟨_, _, _, hin, ⟨hhunt, -, -⟩ | ⟨hhunt, -, -⟩ | ⟨-, hfull, -⟩ | ⟨-, -, ⟨hpartial, -⟩ | ⟨-, hs⟩⟩⟩
  · cases hin
  · cases hin
  · exact absurd hhunt hne
  · exact absurd hhunt hne
  · have hfill : 261 ≤ (Memory.ofBytes held).fill := hfull
    rw [Memory.ofBytes_fill] at hfill
    omega
  · cases hin
    simp only [State.setBuf_buf, State.setInput_buf, hstored, hcomplete] at hpartial
    cases hpartial
  · cases hin
    simp only [State.setBuf_buf, State.setInput_buf, hstored, Memory.ofBytes_bytes] at hs
    exact hs

/-- Holding the frame of fields that select `i`, or select what has the effect of `i`, makes the next step run `i` alone. -/
theorem step_holdFrame_frameBytes (status ty : Byte) (region : List Byte) (cs ex : Byte) (h : region.length ≤ 255)
    {i : Instr} (hexec : ∀ u, exec (selectFrame status ty region cs ex) u = exec i u) (s : State) :
    ∃ items, exec i s = .next { s with out := s.out ++ items } ∧
      step (s.holdFrame (frameBytes status ty region cs ex)) = .next { s with buf := [], out := s.out ++ items } := by
  obtain ⟨hsize, ⟨len, hlen, hval⟩, -⟩ := Laws.frameBytes_size status ty region cs ex h
  obtain ⟨items, -, hitems⟩ := exec_emitsAt s.now i
  have hrun : ∀ u, runFrame (frameBytes status ty region cs ex) u = exec i u := fun u => by
    have hdecode := decode_frameBytes status ty region cs ex [] h
    rw [List.append_nil] at hdecode
    rw [runFrame, hdecode]
    exact hexec u
  refine ⟨items, hitems s rfl, ?_⟩
  obtain ⟨held, last, hf⟩ : ∃ held last, frameBytes status ty region cs ex = held ++ [last] :=
    ⟨Config.stx :: status :: ty :: byteOfNat region.length :: (region ++ [cs]), ex, by simp [frameBytes]⟩
  rw [hf] at hsize hlen hrun ⊢
  rw [step_holdFrame hlen (by rw [hsize, hval]), hrun, hitems (s.setBuf (Memory.ofBytes (held ++ [last]))) rfl]
  rfl

/-! ### The words of the opcode table -/

/-- The frame placed for an outer frame's word is that frame, without the zeros behind it. -/
theorem tableFrame_outerFrame {nbits w : Nat} (hfmt : tableFormat nbits = .outerFrame) {status ty : Byte} {region : List Byte}
    {cs ex : Byte} {rest : List Byte} (h : region.length ≤ 255)
    (hbs : tableBytes nbits w = frameBytes status ty region cs ex ++ rest) :
    tableFrame nbits w = frameBytes status ty region cs ex := by
  have hl : (byteOfNat region.length).toNat = region.length := byteOfNat_toNat _ h
  have htake : tableFrame nbits w =
      (frameBytes status ty region cs ex ++ rest).take ((byteOfNat region.length).toNat + 4 + 2) := by
    rw [tableFrame, hfmt, hbs]
    rfl
  rw [htake, hl, List.take_left']
  simp [frameBytes]

/-- The frame placed for a sub-record's word carries that sub-record alone, when a payload can hold it. -/
theorem tableFrame_subRecord {nbits w : Nat} (hfmt : tableFormat nbits = .subRecord) {t : Byte} {body rest : List Byte}
    (h : body.length ≤ 250) (hbs : tableBytes nbits w = recordBytes t body ++ rest) :
    tableFrame nbits w = buildFrame 0 0 (recordBytes t body) := by
  have hl : (byteOfNat body.length).toNat = body.length := byteOfNat_toNat _ (by omega)
  have hsize : (recordBytes t body).length = 2 + body.length := by
    rw [recordBytes, List.length_cons, List.length_cons]
    omega
  have htake : tableFrame nbits w =
      buildFrame 0 0 (((recordBytes t body ++ rest).take (2 + (byteOfNat body.length).toNat)).take 252) := by
    rw [tableFrame, hfmt, hbs]
    rfl
  rw [htake, hl, List.take_left' hsize, List.take_of_length_le (by omega)]

theorem decodeTableWord_eq_some {nbits w : Nat} {i : Instr} :
    decodeTableWord nbits w = some i ↔ ∃ rest, decode (tableFormat nbits) (tableBytes nbits w) = .ok (i, rest) := by
  unfold decodeTableWord
  match decode (tableFormat nbits) (tableBytes nbits w) with
  | .ok (j, rest) => simp
  | .error _ => simp

/-- Settles O52: the frame placed is the instruction's own encoding, or an accepted frame whose walk is the sub-record alone. -/
theorem fetchWordRunsInstruction : Obligations.FetchWordRunsInstruction := by
  intro s nbits w i hword hfits
  obtain ⟨rest, hdecode⟩ := decodeTableWord_eq_some.mp hword
  rw [State.withFetchWord]
  cases hfmt : tableFormat nbits with
  | outerFrame =>
    rw [hfmt] at hdecode
    obtain ⟨status, ty, region, cs, ex, hlen, hbs, rfl⟩ := decode_outerFrame_eq_ok.mp hdecode
    rw [tableFrame_outerFrame hfmt hlen hbs]
    exact step_holdFrame_frameBytes status ty region cs ex hlen (fun _ => rfl) s
  | subRecord =>
    rw [hfmt] at hdecode
    obtain ⟨t, body, hlen, hbs, rfl⟩ := decode_subRecord_eq_ok.mp hdecode
    have hbody : body.length ≤ 250 := by simpa [selectRecord_format, selectRecord_counted] using hfits
    have hregion : ((0 : Byte) :: 0 :: 0 :: recordBytes t body).length ≤ 255 := by
      simp only [recordBytes, List.length_cons]
      omega
    rw [tableFrame_subRecord hfmt hbody hbs]
    refine step_holdFrame_frameBytes 0 Config.pktGenout (0 :: 0 :: 0 :: recordBytes t body) _ _ hregion (fun u => ?_) s
    calc exec (acceptedFrame 0 0 (recordBytes t body)) u
        = walk (recordBytes t body) u := exec_acceptedFrame 0 0 _ u
      _ = dispatch t body u := walk_recordBytes t body u hlen
      _ = exec (selectRecord t body) u := dispatch_eq_exec_selectRecord t body u

end Sys2Proof.Machine
end

section
/-!
PROOFS. The byte codec (40_byte_codec.md R120 to R128): what a read says about each byte it names, and how a read splits.
-/

namespace Sys2Proof.Machine

/-! ### The bytes of a value -/

/-- Byte `k` of the `n` bytes of a value (R128). -/
theorem beBytes_getElem? (n v : Nat) {k : Nat} (h : k < n) :
    (beBytes n v)[k]? = some (byteOfNat (v / 256 ^ (n - 1 - k))) := by
  induction n generalizing k with
  | zero => omega
  | succ n ih =>
    cases k with
    | zero => rfl
    | succ k => rw [beBytes, List.getElem?_cons_succ, ih (by omega), show n + 1 - 1 - (k + 1) = n - 1 - k by omega]

/-- Bit `j` of byte `i` of a value, counted from the least significant byte, is bit `8i + j` of the value. -/
theorem byteOfNat_getLsbD (v i : Nat) {j : Nat} (h : j < 8) :
    (byteOfNat (v / 256 ^ i)).getLsbD j = v.testBit (8 * i + j) := by
  rw [BitVec.getLsbD_ofNat, show 256 ^ i = 2 ^ (8 * i) from (Nat.pow_mul 2 8 i).symm, Nat.testBit_div_two_pow, Nat.add_comm]
  simp [h]

/-- The value is the sum of the bytes times powers of 256 (R120). -/
theorem beNat_eq_sum (bs : List Byte) :
    beNat bs = ((List.range bs.length).map (fun k => (byteAt bs k).toNat * 256 ^ (bs.length - 1 - k))).sum := by
  induction bs with
  | nil => rfl
  | cons b bs ih =>
    have hexp (k : Nat) : bs.length - 1 - k = bs.length - (k + 1) := by omega
    rw [beNat_cons, ih, List.length_cons, List.range_succ_eq_map]
    simp [Function.comp_def, hexp]

/-! ### What a read answers -/

/-- A read that answers names exactly `n` bytes, and their value is the answer. -/
theorem bytes_of_memRead {s : List Byte} {a n v : Nat} (h : memRead s a n = some v) :
    ∃ bs, (s.drop a).take n = bs ∧ bs.length = n ∧ beNat bs = v := by
  obtain ⟨hbound, hv⟩ := memRead_eq_some.mp h
  refine ⟨_, rfl, ?_, hv⟩
  rw [List.length_take, List.length_drop]
  omega

/-- The bytes a read names are the bytes of its value. -/
theorem beBytes_of_memRead {s : List Byte} {a n v : Nat} (h : memRead s a n = some v) :
    beBytes n v = (s.drop a).take n := by
  obtain ⟨bs, hbs, rfl, rfl⟩ := bytes_of_memRead h
  rw [hbs, beBytes_beNat]

/-- Each byte a read names, from the value read (R128). -/
theorem getElem?_of_memRead {s : List Byte} {a n v k : Nat} (h : memRead s a n = some v) (hk : k < n) :
    s[a + k]? = some (byteOfNat (v / 256 ^ (n - 1 - k))) := by
  rw [← beBytes_getElem? n v hk, beBytes_of_memRead h, List.getElem?_take_of_lt hk, List.getElem?_drop]

theorem memRead_isSome {s : List Byte} {a n : Nat} (h : a + n ≤ s.length) : ∃ v, memRead s a n = some v :=
  ⟨_, memRead_eq_some.mpr ⟨h, rfl⟩⟩

theorem memRead_lt {s : List Byte} {a n v : Nat} (h : memRead s a n = some v) : v < 2 ^ (8 * n) := by
  obtain ⟨bs, -, rfl, rfl⟩ := bytes_of_memRead h
  rw [Nat.pow_mul]
  exact beNat_lt bs

/-- The read as the printed sum over the bytes it names (R120). -/
theorem memRead_eq_sum {s : List Byte} {a n v : Nat} (h : memRead s a n = some v) :
    v = ((List.range n).map (fun k => (byteAt s (a + k)).toNat * 256 ^ (n - 1 - k))).sum := by
  obtain ⟨bs, hbs, rfl, rfl⟩ := bytes_of_memRead h
  rw [beNat_eq_sum]
  refine congrArg List.sum (List.map_congr_left fun k hk => ?_)
  have hbyte : byteAt bs k = byteAt s (a + k) := by
    rw [byteAt, byteAt, List.getD_eq_getElem?_getD, List.getD_eq_getElem?_getD, ← List.getElem?_drop, ← hbs,
      List.getElem?_take_of_lt (List.mem_range.mp hk)]
  rw [hbyte]

/-- The read bit by bit (R120). -/
theorem memRead_testBit {s : List Byte} {a n v k j : Nat} (h : memRead s a n = some v) (hk : k < n) (hj : j < 8) :
    v.testBit (8 * (n - 1 - k) + j) = (byteAt s (a + k)).getLsbD j := by
  rw [byteAt, List.getD_eq_getElem?_getD, getElem?_of_memRead h hk, Option.getD_some, byteOfNat_getLsbD v _ hj]

/-- Two reads one behind the other are one read, the first the more significant (R94, R128). -/
theorem memRead_add {s : List Byte} {a m n hi lo : Nat} (hhi : memRead s a m = some hi)
    (hlo : memRead s (a + m) n = some lo) : memRead s a (m + n) = some (hi * 2 ^ (8 * n) + lo) := by
  obtain ⟨his, hhis, -, rfl⟩ := bytes_of_memRead hhi
  obtain ⟨los, hlos, rfl, rfl⟩ := bytes_of_memRead hlo
  obtain ⟨hbound, -⟩ := memRead_eq_some.mp hlo
  refine memRead_eq_some.mpr ⟨by omega, ?_⟩
  rw [List.take_add, List.drop_drop, hhis, hlos, beNat_append, Nat.pow_mul]

/-- A read of `n` bytes loses nothing as a word of `8n` bits (R121 to R126). -/
theorem memRead_word {s : List Byte} {a n : Nat} (h : a + n ≤ s.length) :
    ∃ v : BitVec (8 * n), (memRead s a n).map (BitVec.ofNat (8 * n)) = some v ∧ memRead s a n = some v.toNat := by
  obtain ⟨v, hv⟩ := memRead_isSome h
  refine ⟨BitVec.ofNat (8 * n) v, by rw [hv, Option.map_some], ?_⟩
  rw [hv, BitVec.toNat_ofNat, Nat.mod_eq_of_lt (memRead_lt hv)]

/-! ### The obligations -/

/-- Settles O7: the read answers inside its bounds, and the sum and the bits are two ways to say its bytes. -/
theorem readsAreBigEndian : Obligations.ReadsAreBigEndian := by
  intro s a n hbound
  obtain ⟨v, hv⟩ := memRead_isSome hbound
  exact ⟨v, hv, memRead_lt hv, memRead_eq_sum hv, fun _ _ hk hj => memRead_testBit hv hk hj⟩

/-- Settles O8: every operation is a read as a word of its own width, reads join, and a value's bytes determine it. -/
theorem codecWidthsHalvesAndInverse : Obligations.CodecWidthsHalvesAndInverse := by
  refine ⟨fun s a => ⟨memRead_word, memRead_word, fun hbound => ?_, memRead_word⟩, ?halves, ?readBack, ?bytes⟩
  · obtain ⟨v, hword, hread⟩ := memRead_word hbound
    exact ⟨v, hword, hword, hread⟩
  case halves =>
    intro s a m hbound
    obtain ⟨hi, hhi⟩ := memRead_isSome (s := s) (a := a) (n := m) (by omega)
    obtain ⟨lo, hlo⟩ := memRead_isSome (s := s) (a := a + m) (n := m) (by omega)
    refine ⟨hi, lo, hhi, hlo, ?_⟩
    rw [Nat.two_mul]
    exact memRead_add hhi hlo
  case readBack =>
    intro before after n v hv
    have hwidth : v < 2 ^ (8 * n) := by simpa [Nat.pow_mul] using hv
    rw [List.append_assoc]
    exact memRead_beBytes before after (BitVec.ofNatLT v hwidth)
  case bytes => exact fun s a n v k hread hk => getElem?_of_memRead hread hk

end Sys2Proof.Machine
end

section
/-!
PROOFS. The frame synchronizer (41_frame_sync.md): the step for a byte in HUNT, for a byte that a partial frame takes in, and for
the byte that completes a candidate; and the runs over whole streams that these steps make up.
-/

namespace Sys2Proof.Machine

/-! ### A byte in HUNT -/

/-- Settles O32: the two HUNT rows of the transition table. -/
theorem step_huntByte : Obligations.HuntByte := by
  intro s b now rest hbuf hin
  rcases step_cases s with ⟨hidle, -⟩ | ⟨_, hreset, -⟩ |
      ⟨_, _, _, hbyte, ⟨-, hb, hs⟩ | ⟨-, hb, hs⟩ | ⟨hheld, -, -⟩ | ⟨hheld, -, -⟩⟩
  · cases hin.symm.trans hidle
  · cases hin.symm.trans hreset
  · cases hin.symm.trans hbyte
    rw [hs, if_neg hb, ← hbuf]
    rfl
  · cases hin.symm.trans hbyte
    rw [hs, if_pos hb]
    rfl
  · exact absurd hbuf hheld
  · exact absurd hbuf hheld

/-! ### A byte that a partial frame takes in -/

/-- The completion test on any buffer (R144). -/
theorem Memory.complete_iff (m : Memory) :
    m.complete = true ↔ ∃ len, m.read 3 = some len ∧ m.fill = len.toNat + 6 := by
  simp only [Memory.complete, Memory.frameSize, beq_iff_eq, Option.map_eq_some_iff]
  exact exists_congr fun _ => and_congr_right fun _ => eq_comm

/-- Settles O33: with a byte held and an address free, the completion test alone tells the rows of the transition table apart. -/
theorem step_collectByte : Obligations.CollectByte := by
  intro s b now rest hheld hfree hin hpartial
  rcases step_cases s with ⟨hidle, -⟩ | ⟨_, hreset, -⟩ |
      ⟨_, _, _, hbyte, ⟨hbuf, -, -⟩ | ⟨hbuf, -, -⟩ | ⟨-, hfull, -⟩ | ⟨-, -, ⟨-, hs⟩ | ⟨hcomplete, -⟩⟩⟩
  · cases hin.symm.trans hidle
  · cases hin.symm.trans hreset
  · exact absurd hbuf hheld
  · exact absurd hbuf hheld
  · exact absurd hfree hfull.not_gt
  · cases hin.symm.trans hbyte
    exact hs
  · cases hin.symm.trans hbyte
    obtain ⟨len, hlen, hsize⟩ := (Memory.complete_iff _).mp hcomplete
    rw [State.setBuf_buf, Memory.fill, List.length_append, List.length_singleton] at hsize
    exact absurd hsize (hpartial len hlen)

/-- From a canonical buffer, a byte that leaves a partial frame is held behind the others, in HUNT and in COLLECT alike
(R141, R142). -/
theorem step_of_partialFrame {s : State} {held : List Byte} {b : Byte} {now : Timestamp} {rest : List Event}
    (hbuf : s.buf = Memory.ofBytes held) (hin : s.input = .byte b now :: rest) (hpartial : PartialFrame (held ++ [b])) :
    step s = .next { buf := Memory.ofBytes (held ++ [b]), now := now, input := rest, out := s.out } := by
  obtain ⟨hstart, hsize⟩ := hpartial
  by_cases hheld : held = []
  · subst hheld
    obtain rfl : b = Config.stx := by simpa using hstart
    exact step_huntByte s _ now rest hbuf hin
  · have hstored : s.buf ++ [(s.buf.fill, b)] = Memory.ofBytes (held ++ [b]) := by
      rw [hbuf, Memory.ofBytes_fill, Memory.ofBytes_append]
    have hlt := PartialFrame.length_lt ⟨hstart, hsize⟩
    rw [List.length_append, List.length_singleton] at hlt
    rw [← hstored]
    refine step_collectByte s b now rest (by simpa [hbuf] using hheld) ?_ hin fun len hlen => ?_
    · rw [hbuf, Memory.ofBytes_fill]
      exact Nat.lt_of_succ_lt hlt
    · rw [hstored, Memory.ofBytes_read] at hlen
      have hshort := hsize len hlen
      rw [List.length_append, List.length_singleton] at hshort
      rw [hbuf, Memory.ofBytes_fill]
      exact hshort.ne

/-! ### The byte that completes a candidate -/

/-- A byte event brings its own timestamp: the value that stood on the input before it is not read (R284). -/
theorem step_setNow_of_byte {s : State} {b : Byte} {now : Timestamp} {rest : List Event} (hin : s.input = .byte b now :: rest)
    (earlier : Timestamp) : step (s.setNow earlier) = step s := by
  simp only [step, nextEvent, State.setNow_input, hin]
  rfl

/-- The completing byte processes the whole candidate, with the timestamp of that byte, and empties the buffer (R144, R145). -/
theorem step_of_completing {s : State} {held : List Byte} {last len : Byte} {now : Timestamp} {rest : List Event}
    (hbuf : s.buf = Memory.ofBytes held) (hin : s.input = .byte last now :: rest)
    (hlen : (held ++ [last])[3]? = some len) (hsize : (held ++ [last]).length = len.toNat + 6) :
    step s = andThen
      (runFrame (held ++ [last]) { buf := Memory.ofBytes (held ++ [last]), now := now, input := rest, out := s.out })
      (fun t => .next t.clearBuf) := by
  have hholds : s.setNow now = State.holdFrame { s with now := now, input := rest } (held ++ [last]) := by
    rw [State.holdFrame_append_singleton, ← hbuf]
    simp only [State.setNow, State.setBuf, State.setInput, ← hin]
  rw [← step_setNow_of_byte hin now, hholds, step_holdFrame hlen hsize]
  rfl

/-- Bytes that begin with the start marker and are as many as the length byte announces are a frame (R81, R82). -/
theorem exists_decode_of_candidate {f : List Byte} {len : Byte} (hstart : f[0]? = some Config.stx)
    (hlen : f[3]? = some len) (hsize : f.length = len.toNat + 6) : ∃ i rest, decode .outerFrame f = .ok (i, rest) := by
  match f with
  | [] | [_] | [_, _] | [_, _, _] => cases hlen
  | x :: status :: ty :: l :: tail =>
    cases hstart
    cases hlen
    rcases decode_outerFrame_cases (Config.stx :: status :: ty :: len :: tail) with
      ⟨_, _, _, _, _, _, -, -, hdecode⟩ | ⟨_, _, _, _, _, hbad, hbytes, -⟩ | ⟨hshort, -⟩
    · exact ⟨_, _, hdecode⟩
    · cases hbytes
      exact absurd rfl hbad
    · obtain ⟨-, hlt⟩ := hshort _ _ _ _ _ rfl
      simp only [List.length_cons] at hsize
      omega

/-- Bytes that decode as a frame run its instruction (R160). -/
theorem runFrame_of_decode {f rest : List Byte} {i : Instr} (h : decode .outerFrame f = .ok (i, rest)) (s : State) :
    runFrame f s = exec i s := by
  rw [runFrame, h]

/-- Settles O35: the candidate is a frame, so that its instruction runs, and that completes with items appended. -/
theorem completionEmptiesBuffer : Obligations.CompletionEmptiesBuffer := by
  intro s b len now rest hinv hheld hin hlen hsize
  obtain ⟨held, hbuf, hstart, -⟩ := s.inv_iff.mp hinv
  rw [hbuf, Memory.ofBytes_bytes] at hlen
  rw [hbuf, Memory.ofBytes_fill] at hsize
  have hne : held ≠ [] := fun hnil => hheld (by rw [hbuf, hnil]; rfl)
  have hfirst : (held ++ [b])[0]? = some Config.stx := by
    rw [List.getElem?_append_left (List.length_pos_of_ne_nil hne)]
    exact hstart hne
  have hwhole : (held ++ [b]).length = len.toNat + 6 := by
    rw [List.length_append, List.length_singleton, hsize]
  obtain ⟨i, _, hdecode⟩ := exists_decode_of_candidate hfirst hlen hwhole
  obtain ⟨items, hexec⟩ := exec_eq_emitAll i { buf := Memory.ofBytes (held ++ [b]), now := now, input := rest, out := s.out }
  refine ⟨items, ?_⟩
  rw [step_of_completing hbuf hin hlen hwhole, runFrame_of_decode hdecode, hexec]
  rfl

/-! ### The encoding of a frame as a candidate -/

/-- The encoding of a frame begins with the start marker and is as long as its length byte announces (R81, R82). -/
theorem encode_frame_layout {i : Instr} (hi : i.isFrame = true) :
    ∃ len, (encode i)[0]? = some Config.stx ∧ (encode i)[3]? = some len ∧ (encode i).length = len.toNat + 6 := by
  obtain ⟨hwf, hformat⟩ : WellFormed i = true ∧ i.format = .outerFrame := by simpa using hi
  obtain ⟨status, ty, region, cs, ex, hregion, rfl⟩ := exists_eq_selectFrame hwf hformat
  obtain ⟨hsize, ⟨len, hlen, hval⟩, -⟩ := Laws.frameBytes_size status ty region cs ex hregion
  rw [encode_selectFrame]
  exact ⟨len, rfl, hlen, by rw [hsize, hval]⟩

/-- Processing the encoding of a frame is running its instruction (R144, R160). -/
theorem runFrame_encode {i : Instr} (hi : i.isFrame = true) (s : State) : runFrame (encode i) s = exec i s := by
  obtain ⟨hwf, hformat⟩ : WellFormed i = true ∧ i.format = .outerFrame := by simpa using hi
  have hdecode := decodeInvertsEncode i [] hwf
  rw [List.append_nil, hformat] at hdecode
  exact runFrame_of_decode hdecode s

/-- What has arrived of a frame before its last byte is a partial frame (R148). -/
theorem partialFrame_of_append_eq_encode {i : Instr} (hi : i.isFrame = true) {held missing : List Byte}
    (hbytes : held ++ missing = encode i) (hne : missing ≠ []) : PartialFrame held := by
  obtain ⟨len, hstart, hlen, hsize⟩ := encode_frame_layout hi
  have hpos : 0 < missing.length := List.length_pos_of_ne_nil hne
  rw [← hbytes] at hstart hlen hsize
  rw [List.length_append] at hsize
  refine ⟨fun hheld => ?_, fun len' hlen' => ?_⟩
  · rwa [List.getElem?_append_left (List.length_pos_of_ne_nil hheld)] at hstart
  · obtain ⟨h3, -⟩ := List.getElem?_eq_some_iff.mp hlen'
    rw [List.getElem?_append_left h3, hlen'] at hlen
    cases hlen
    omega

/-- The last byte of a frame runs its instruction at the state that holds the whole frame, and empties the buffer (R144). -/
theorem step_of_encode {i : Instr} (hi : i.isFrame = true) {s : State} {held : List Byte} {last : Byte} {now : Timestamp}
    {rest : List Event} (hbuf : s.buf = Memory.ofBytes held) (hin : s.input = .byte last now :: rest)
    (hbytes : held ++ [last] = encode i) :
    step s = andThen (exec i { buf := Memory.ofBytes (encode i), now := now, input := rest, out := s.out })
      (fun t => .next t.clearBuf) := by
  obtain ⟨len, -, hlen, hsize⟩ := encode_frame_layout hi
  rw [← hbytes] at hlen hsize
  rw [step_of_completing hbuf hin hlen hsize, hbytes, runFrame_encode hi]

/-- Settles O34: the completing step, with the canonical buffer read as the bytes it holds. -/
theorem stepRunsDecodedFrame : Obligations.StepRunsDecodedFrame := by
  intro i s b now rest hi hwf hin hbytes
  obtain ⟨hbuf, -⟩ := s.buf.wf_iff.mp hwf
  obtain ⟨items, hexec⟩ := exec_eq_emitAll i { buf := Memory.ofBytes (encode i), now := now, input := rest, out := s.out }
  refine ⟨_, hexec, ?_⟩
  rw [step_of_encode hi hbuf hin hbytes, hexec]
  rfl

/-! ### Runs over streams -/

/-- A run of any machine goes on from the state its first step answers. -/
theorem core_run_succ_of_step (M : Host.Core) {s t : M.State} (h : M.step s = .next t) (n : Nat) :
    M.run (n + 1) s = M.run n t := by
  simp only [Host.Core.run, h]

theorem core_run_one (M : Host.Core) (s : M.State) : M.run 1 s = M.step s := by
  simp only [Host.Core.run]
  cases M.step s <;> rfl

/-- A run of the block goes on from the state its first step answers. -/
theorem run_succ_of_step {s t : State} (h : step s = .next t) (n : Nat) :
    (Sys2Proof.core.run (n + 1) s : Result) = Sys2Proof.core.run n t :=
  core_run_succ_of_step Sys2Proof.core h n

theorem run_one (s : State) : (Sys2Proof.core.run 1 s : Result) = step s :=
  core_run_one Sys2Proof.core s

/-- Settles O48, by induction on the stream: every byte of it leaves the block in HUNT. -/
theorem noiseIsDiscarded : Obligations.NoiseIsDiscarded := by
  intro s stream rest hbuf hnoise hin
  induction stream generalizing s with
  | nil =>
    obtain rfl : s.input = rest := hin
    exact ⟨s.now, rfl⟩
  | cons e stream ih =>
    obtain ⟨hhead, htail⟩ := List.forall_mem_cons.mp hnoise
    have hstep := step_huntByte s e.1 e.2 (byteEvents stream ++ rest) hbuf hin
    rw [if_neg hhead] at hstep
    obtain ⟨now, hrun⟩ := ih { buf := [], now := e.2, input := byteEvents stream ++ rest, out := s.out } rfl htail rfl
    exact ⟨now, by rw [List.length_cons, run_succ_of_step hstep, hrun, hbuf]⟩

/-- The missing bytes of a frame, fed one by one to a block that holds the others, run its instruction at the last one and with
its timestamp (R144, R147): by induction on the bytes before the last, each of which leaves a partial frame. -/
theorem run_missing_bytes {i : Instr} (hi : i.isFrame = true) (stream : List (Byte × Timestamp)) (last : Byte × Timestamp)
    (rest : List Event) {s : State} {held : List Byte} (hbuf : s.buf = Memory.ofBytes held)
    (hbytes : held ++ (stream ++ [last]).map (fun e => e.1) = encode i)
    (hin : s.input = byteEvents (stream ++ [last]) ++ rest) :
    (Sys2Proof.core.run (stream.length + 1) s : Result) =
      andThen (exec i { buf := Memory.ofBytes (encode i), now := last.2, input := rest, out := s.out })
        (fun t => .next t.clearBuf) := by
  induction stream generalizing s held with
  | nil =>
    rw [List.length_nil, run_one, step_of_encode hi hbuf hin hbytes]
    rfl
  | cons e stream ih =>
    have hsplit : (held ++ [e.1]) ++ (stream ++ [last]).map (fun e => e.1) = encode i := by
      rw [List.append_assoc]
      exact hbytes
    have hpartial : PartialFrame (held ++ [e.1]) := partialFrame_of_append_eq_encode hi hsplit (by simp)
    rw [List.length_cons, run_succ_of_step (step_of_partialFrame hbuf hin hpartial)]
    exact ih rfl hsplit rfl

/-- Settles O47: an empty buffer lacks the whole frame, and what the instruction appends is fixed by the timestamp alone. -/
theorem wholeFrameByteByByte : Obligations.WholeFrameByteByByte := by
  intro i s stream last rest hi hbuf hbytes hin
  obtain ⟨items, -, hexec⟩ := exec_emitsAt last.2 i
  refine ⟨items, hexec _ rfl, ?_⟩
  rw [run_missing_bytes (held := []) hi stream last rest hbuf hbytes hin, hexec _ rfl]
  rfl

end Sys2Proof.Machine
end

section
/-!
PROOFS. The frame validator (42_frame_validate.md): the additive checksum, and that a candidate's raw bytes pass the printed checks
exactly where its decoded frame passes the machine's.
-/

namespace Sys2Proof.Machine

/-! ### The additive checksum -/

/-- Reducing after every addition is reducing once at the end (R166). -/
theorem sumBytes_toNat (bs : List Byte) : (sumBytes bs).toNat = (bs.map (fun x => x.toNat)).sum % 256 := by
  induction bs with
  | nil => rfl
  | cons b bs ih => rw [sumBytes_cons, BitVec.toNat_add, ih, List.map_cons, List.sum_cons, Nat.add_mod_mod]

/-- Settles O11: a sum of naturals does not depend on their order, so neither does its remainder. -/
theorem sum8IsSumModulo256 : Obligations.Sum8IsSumModulo256 := by
  refine ⟨fun s a b => sumBytes_toNat (slice s a b), fun xs ys hperm => BitVec.eq_of_toNat_eq ?_⟩
  rw [sumBytes_toNat, sumBytes_toNat, (hperm.map _).sum_eq]

/-- Replacing a summed byte moves the sum by the difference of the two bytes (R170). -/
theorem sumBytes_set {bs : List Byte} {i : Nat} (h : i < bs.length) (x : Byte) :
    sumBytes (bs.set i x) + bs[i] = sumBytes bs + x := by
  induction bs generalizing i with
  | nil => cases h
  | cons b bs ih =>
    cases i with
    | zero =>
      simp only [List.set_cons_zero, List.getElem_cons_zero, sumBytes_cons]
      ac_rfl
    | succ i =>
      simp only [List.set_cons_succ, List.getElem_cons_succ, sumBytes_cons, BitVec.add_assoc]
      rw [ih (Nat.lt_of_succ_lt_succ h)]

/-- A slice that begins at or before the replaced byte has that byte replaced (R7). -/
theorem slice_set (s : List Byte) {a k : Nat} (h : a ≤ k) (b : Nat) (x : Byte) :
    slice (s.set k x) a b = (slice s a b).set (k - a) x := by
  rw [slice, slice, List.drop_set, if_neg h.not_gt, List.take_set]

/-- Offset `k` of the whole is offset `k - a` of a slice that holds it (R7). -/
theorem slice_getElem (s : List Byte) {a b k : Nat} (ha : a ≤ k) (hb : k ≤ b) (hk : k < s.length) :
    ∃ h : k - a < (slice s a b).length, (slice s a b)[k - a] = byteAt s k := by
  refine ⟨by simp only [slice, List.length_take, List.length_drop]; omega, ?_⟩
  simp [slice, byteAt, Nat.add_sub_cancel' ha, hk]

/-- Settles O12: a single change moves the sum by a difference that is not 0; two cancelling ones move it by `d - d`. -/
theorem checksumDetectsSingleChanges : Obligations.ChecksumDetectsSingleChanges := by
  constructor
  · intro s a b k x ha hb hk hne hsum
    obtain ⟨hi, hbyte⟩ := slice_getElem s ha hb hk
    have hmoved := sumBytes_set hi x
    rw [← slice_set s ha, hbyte, show sumBytes (slice (s.set k x) a b) = sumBytes (slice s a b) from hsum] at hmoved
    exact hne (add_left_cancel hmoved)
  · intro before between after x y d
    simp only [sumBytes_append, sumBytes_cons]
    ring

/-! ### Check 1 -/

/-- Four bytes are enough for the decoder to report a wrong start marker, whatever the length byte announces (R81, R161). -/
theorem decode_of_badStart {f : List Byte} (hfour : 4 ≤ f.length) (hstart : byteAt f 0 ≠ Config.stx) :
    decode .outerFrame f = .error (.badStart (byteAt f 0)) := by
  match f with
  | x :: status :: ty :: len :: tail => exact if_pos hstart

/-- Settles O36: the decoder reports the wrong start marker, and no instruction runs. -/
theorem badStartComesFirst : Obligations.BadStartComesFirst := by
  intro f s hfour hstart
  rw [runFrame, decode_of_badStart hfour hstart]
  rfl

/-! ### The raw bytes of a frame, by frame offset -/

theorem byteAt_frameBytes_length (status ty : Byte) {region : List Byte} (hregion : region.length ≤ 255) (cs ex : Byte) :
    (byteAt (frameBytes status ty region cs ex) 3).toNat = region.length := byteOfNat_toNat _ hregion

theorem byteAt_frameBytes_checksum (status ty : Byte) (region : List Byte) (cs ex : Byte) :
    byteAt (frameBytes status ty region cs ex) (4 + region.length) = cs := by
  simp [byteAt, frameBytes, Nat.add_comm 4]

theorem byteAt_frameBytes_etx (status ty : Byte) (region : List Byte) (cs ex : Byte) :
    byteAt (frameBytes status ty region cs ex) (5 + region.length) = ex := by
  simp [byteAt, frameBytes, Nat.add_comm 5]

/-- The bytes summed are frame offsets 1 to `3 + L` (R51, R165). -/
theorem sum8_frameBytes (status ty : Byte) (region : List Byte) (cs ex : Byte) :
    sum8 (frameBytes status ty region cs ex) 1 (3 + region.length) = frameChecksum status ty region := by
  simp [sum8, slice, frameBytes, frameChecksum, checksummedRegion, Nat.add_comm 3]

/-- The payload is frame offsets 7 to `3 + L`, behind the transmission number and the two paging bytes (R168). -/
theorem slice_frameBytes_payload (status ty txn page maxPage : Byte) (payload : List Byte) (cs ex : Byte) :
    slice (frameBytes status ty (txn :: page :: maxPage :: payload) cs ex) 7
      (3 + (txn :: page :: maxPage :: payload).length) = payload := by
  simp [slice, frameBytes, Nat.add_comm 3]

/-- A candidate that begins with the start marker is the bytes of a frame and nothing behind it (R81, R144). -/
theorem exists_frameBytes_of_candidate {f : List Byte} (hstart : byteAt f 0 = Config.stx)
    (hsize : f.length = (byteAt f 3).toNat + 6) :
    ∃ status ty region cs ex, region.length ≤ 255 ∧ f = frameBytes status ty region cs ex := by
  have hfirst : f[0]? = some Config.stx := by
    rw [← hstart, byteAt, List.getD_eq_getElem _ _ (by omega), List.getElem?_eq_getElem]
  have hlen : f[3]? = some (byteAt f 3) := by
    rw [byteAt, List.getD_eq_getElem _ _ (by omega), List.getElem?_eq_getElem]
  obtain ⟨_, rest, hdecode⟩ := exists_decode_of_candidate hfirst hlen hsize
  obtain ⟨status, ty, region, cs, ex, hregion, rfl, -⟩ := decode_outerFrame_eq_ok.mp hdecode
  have hcounted : (byteAt (frameBytes status ty region cs ex ++ rest) 3).toNat = region.length :=
    byteAt_frameBytes_length status ty hregion cs ex
  obtain ⟨hframe, -, -⟩ := Laws.frameBytes_size status ty region cs ex hregion
  have hrest : rest = [] := List.eq_nil_of_length_eq_zero (by rw [List.length_append] at hsize; omega)
  exact ⟨status, ty, region, cs, ex, hregion, by rw [hrest, List.append_nil]⟩

/-! ### The verdict on the raw bytes of a frame -/

theorem frameVerdict_of_badStart {f : List Byte} (hstart : byteAt f 0 ≠ Config.stx) :
    frameVerdict f = some (.badStart, byteAt f 0, 0) := if_pos hstart

/-- Check 2 fails on every other packet type (R162). -/
theorem frameVerdict_frameBytes_of_type_ne {ty : Byte} (hty : ty ≠ Config.pktGenout) (status : Byte) (region : List Byte)
    (cs ex : Byte) :
    frameVerdict (frameBytes status ty region cs ex) = some (.unsupportedPacketType, ty, 0) := if_pos hty

/-- Check 2a fails on a region too short for the paging bytes (R163). -/
theorem frameVerdict_frameBytes_of_short {region : List Byte} (hshort : region.length < 3) (status cs ex : Byte) :
    frameVerdict (frameBytes status Config.pktGenout region cs ex) = some (.lengthTooShort, byteOfNat region.length, 0) := by
  refine if_pos ?_
  rwa [byteAt_frameBytes_length _ _ (by omega)]

/-- With the paging bytes there, checks 3 to 5 are left (R164, R165, R167). -/
theorem frameVerdict_frameBytes_of_paged (status txn page maxPage : Byte) {payload : List Byte}
    (hregion : (txn :: page :: maxPage :: payload).length ≤ 255) (cs ex : Byte) :
    frameVerdict (frameBytes status Config.pktGenout (txn :: page :: maxPage :: payload) cs ex) =
      if page ≠ 0 ∨ maxPage ≠ 0 then some (.multiPageUnsupported, page, maxPage)
      else if frameChecksum status Config.pktGenout (txn :: page :: maxPage :: payload) ≠ cs then
        some (.checksumMismatch, frameChecksum status Config.pktGenout (txn :: page :: maxPage :: payload), cs)
      else if ex ≠ Config.etx then some (.badEnd, ex, 0)
      else none := by
  have hpaged : ¬(txn :: page :: maxPage :: payload).length < 3 := by simp
  simp only [frameVerdict, byteAt_frameBytes_length _ _ hregion, if_neg hpaged, sum8_frameBytes, byteAt_frameBytes_checksum,
    byteAt_frameBytes_etx]
  rfl

/-! ### The machine and the printed checks -/

/-- Processing the bytes of a frame runs the row that its packet type selects (R83, R160). -/
theorem runFrame_frameBytes (status ty : Byte) {region : List Byte} (hregion : region.length ≤ 255) (cs ex : Byte) (s : State) :
    runFrame (frameBytes status ty region cs ex) s = exec (selectFrame status ty region cs ex) s := by
  have hdecode := decode_frameBytes status ty region cs ex [] hregion
  rw [List.append_nil] at hdecode
  exact runFrame_of_decode hdecode s

/-- GENOUT with its paging bytes makes checks 3 to 5, and what it walks when they pass is the payload (R160, R168). -/
theorem execGenout_paged (status txn page maxPage : Byte) (payload : List Byte) (cs ex : Byte) (s : State) :
    execGenout status (txn :: page :: maxPage :: payload) cs ex s =
      if page ≠ 0 ∨ maxPage ≠ 0 then .next (s.raise .multiPageUnsupported page maxPage)
      else if frameChecksum status Config.pktGenout (txn :: page :: maxPage :: payload) ≠ cs then
        .next (s.raise .checksumMismatch (frameChecksum status Config.pktGenout (txn :: page :: maxPage :: payload)) cs)
      else if ex ≠ Config.etx then .next (s.raise .badEnd ex 0)
      else walk payload s := rfl

/-- GENOUT with a region too short for the paging bytes fails check 2a (R163). -/
theorem execGenout_short (status : Byte) {region : List Byte} (hshort : region.length < 3) (cs ex : Byte) (s : State) :
    execGenout status region cs ex s = .next (s.raise .lengthTooShort (byteOfNat region.length) 0) := by
  match region with
  | [] | [_] | [_, _] => rfl

/-- Settles O15, check by check: a candidate with its start marker is the bytes of a frame; its packet type and the length of its
region say which checks are left, and both sides make these in one order. -/
theorem frameChecksInPrintedOrder : Obligations.FrameChecksInPrintedOrder := by
  intro f s hsize
  by_cases hstart : byteAt f 0 = Config.stx
  case neg =>
    rw [badStartComesFirst f s (by omega) hstart, frameVerdict_of_badStart hstart]
    rfl
  obtain ⟨status, ty, region, cs, ex, hregion, rfl⟩ := exists_frameBytes_of_candidate hstart hsize
  rw [runFrame_frameBytes status ty hregion]
  by_cases hty : ty = Config.pktGenout
  case neg =>
    rw [frameVerdict_frameBytes_of_type_ne hty, selectFrame, if_neg hty]
    rfl
  subst hty
  show execGenout status region cs ex s = _
  by_cases hshort : region.length < 3
  case pos =>
    rw [execGenout_short status hshort, frameVerdict_frameBytes_of_short hshort]
    rfl
  obtain ⟨txn, page, maxPage, payload, rfl⟩ : ∃ txn page maxPage payload, region = txn :: page :: maxPage :: payload := by
    match region with
    | txn :: page :: maxPage :: payload => exact ⟨txn, page, maxPage, payload, rfl⟩
    | [] | [_] | [_, _] => simp at hshort
  rw [execGenout_paged, frameVerdict_frameBytes_of_paged status txn page maxPage hregion]
  split_ifs with hpage hsum hetx
  · rfl
  · rfl
  · rfl
  · rw [byteAt_frameBytes_length _ _ hregion, slice_frameBytes_payload]

end Sys2Proof.Machine
end

section
/-!
PROOFS. The sub-record walker (43_subrecord_walker.md): a sub-record appends one item, the walk runs the sub-records of a payload in
order, and bytes behind them that are no whole sub-record end it with TruncatedSubRecord.
-/

namespace Sys2Proof.Machine

/-! ### What a sub-record appends -/

/-- What a sub-record can append: one item, and no TruncatedSubRecord, which the walk alone raises (R185, R238). -/
theorem exec_record_eq_emit {i : Instr} (hf : i.format = .subRecord) (s : State) :
    ∃ item, exec i s = .next (s.emit item) ∧ ∀ a b, item ≠ .err 7 a b := by
  cases i with
  | genout => cases hf
  | pktOther => cases hf
  | ins body =>
    rcases execIns_cases body s with ⟨-, he⟩ | ⟨-, _, -, he⟩
    · exact ⟨_, he, by simp [ErrorKind.item, ErrorKind.code]⟩
    · exact ⟨_, he, by simp⟩
  | insRms body =>
    rcases execInsRms_cases body s with ⟨-, he⟩ | ⟨-, _, -, he⟩
    · exact ⟨_, he, by simp [ErrorKind.item, ErrorKind.code]⟩
    · exact ⟨_, he, by simp⟩
  | rec51 body => exact ⟨_, rfl, by simp [ErrorKind.item, ErrorKind.code]⟩
  | recOther t body => exact ⟨_, rfl, by simp [ErrorKind.item, ErrorKind.code]⟩

/-- Settles O28, ill-formed sub-records included. -/
theorem recordsGiveOneItem : Obligations.RecordsGiveOneItem := by
  intro i s hf
  obtain ⟨item, he, -⟩ := exec_record_eq_emit hf s
  exact ⟨item, he⟩

/-- Settles O30: the items an instruction appends are fixed by the value on the timestamp input. -/
theorem execDependsOnNowOnly : Obligations.ExecDependsOnNowOnly := by
  intro i s s' hnow
  obtain ⟨items, -, hexec⟩ := exec_emitsAt s'.now i
  exact ⟨items, hexec s hnow, hexec s' rfl⟩

/-- Settles O27: decoding and the demultiplexer select the row by the same type byte. -/
theorem dispatchRunsDecodedRecord : Obligations.DispatchRunsDecodedRecord := by
  intro t body rest i s hlen hdecode
  cases (decode_recordBytes t body rest hlen).symm.trans hdecode
  exact dispatch_eq_exec_selectRecord t body s

/-! ### Sub-records one after another -/

theorem isRecord_iff (i : Instr) : i.isRecord = true ↔ WellFormed i = true ∧ i.format = .subRecord := by
  simp [Instr.isRecord]

/-- N sub-records append N items, none of them a TruncatedSubRecord. -/
theorem execAll_records_eq_emitAll {records : List Instr} (h : ∀ i ∈ records, i.isRecord = true) (s : State) :
    ∃ items, items.length = records.length ∧ (∀ a b, Item.err 7 a b ∉ items) ∧
      execAll records s = .next (s.emitAll items) := by
  induction records generalizing s with
  | nil => exact ⟨[], rfl, by simp, by rw [execAll, State.emitAll_nil]⟩
  | cons i records ih =>
    obtain ⟨hi, hrecords⟩ := List.forall_mem_cons.mp h
    obtain ⟨item, hexec, hitem⟩ := exec_record_eq_emit ((isRecord_iff i).mp hi).2 s
    obtain ⟨items, hlen, hitems, hrun⟩ := ih hrecords (s.emit item)
    refine ⟨item :: items, by simp [hlen], fun a b hmem => ?_, ?_⟩
    · rcases List.mem_cons.mp hmem with heq | hmem
      · exact hitem a b heq.symm
      · exact hitems a b hmem
    · rw [execAll, hexec, andThen_next, hrun, State.emit_eq_emitAll, State.emitAll_emitAll, List.singleton_append]

/-- A sub-record's encoding has its type and length bytes (R90), so a payload has at least as many bytes as sub-records. -/
theorem length_le_length_flatMap_encode (records : List Instr) : records.length ≤ (records.flatMap encode).length := by
  induction records with
  | nil => simp
  | cons i records ih =>
    have hpos : 0 < (encode i).length := by cases i <;> exact Nat.succ_pos _
    rw [List.flatMap_cons, List.length_append, List.length_cons]
    omega

/-! ### The walk -/

/-- At a whole sub-record, the walk runs the instruction it encodes and goes on behind it (R185, R186, R208). -/
theorem walkFrom_of_drop_eq_encode_append {p rest : List Byte} {pos : Nat} {i : Instr} (hi : i.isRecord = true)
    (hdrop : p.drop pos = encode i ++ rest) (fuel : Nat) (s : State) :
    walkFrom p (fuel + 1) pos s = andThen (exec i s) (walkFrom p fuel (pos + (encode i).length)) := by
  obtain ⟨hwf, hf⟩ := (isRecord_iff i).mp hi
  obtain ⟨t, body, hbody, rfl⟩ := exists_eq_selectRecord hwf hf
  have hl : (byteOfNat body.length).toNat = body.length := byteOfNat_toNat _ hbody
  obtain ⟨hsize, -, -⟩ := Laws.recordBytes_size t body hbody
  rw [encode_selectRecord] at hdrop ⊢
  replace hdrop : p.drop pos = t :: byteOfNat body.length :: (body ++ rest) := hdrop
  have hpos : pos < p.length := by
    have hlen := congrArg List.length hdrop
    rw [List.length_drop, List.length_cons] at hlen
    omega
  rcases walkFrom_succ_cases p fuel pos s hpos with
    ⟨⟨_, hd⟩, -⟩ | ⟨_, _, _, hd, hshort, -⟩ | ⟨_, _, _, hd, -, -, hw⟩
  · cases hdrop.symm.trans hd
  · cases hdrop.symm.trans hd
    rw [List.length_append] at hshort
    omega
  · cases hdrop.symm.trans hd
    rw [hw, hl, List.take_left, dispatch_eq_exec_selectRecord, hsize, Nat.add_assoc, Nat.add_comm 2]

/-- At bytes that are no whole sub-record, the walk ends with one TruncatedSubRecord (R182, R184). -/
theorem walkFrom_of_unfitting {p : List Byte} {pos : Nat} (h : unfitting (p.drop pos) = true) (fuel : Nat) (s : State) :
    walkFrom p (fuel + 1) pos s =
      .next (s.raise .truncatedSubRecord (byteOfNat pos) (byteOfNat (p.length - pos))) := by
  have hpos : pos < p.length := by
    by_contra hend
    rw [List.drop_eq_nil_of_le (Nat.le_of_not_lt hend)] at h
    cases h
  rcases walkFrom_succ_cases p fuel pos s hpos with ⟨-, hw⟩ | ⟨_, _, _, -, -, hw⟩ | ⟨t, l, tail, hd, hfits, -, -⟩
  · exact hw
  · exact hw
  · rw [hd] at h
    exact absurd (of_decide_eq_true h) hfits.not_gt

/-- At whole sub-records, the walk runs them in order and goes on behind the last, one iteration for each (R188). -/
theorem walkFrom_of_drop_eq_flatMap_encode_append {p rest : List Byte} {pos : Nat} {records : List Instr}
    (h : ∀ i ∈ records, i.isRecord = true) (hdrop : p.drop pos = records.flatMap encode ++ rest) (fuel : Nat) (s : State) :
    walkFrom p (fuel + records.length) pos s =
      andThen (execAll records s) (walkFrom p fuel (pos + (records.flatMap encode).length)) := by
  induction records generalizing pos s with
  | nil => rfl
  | cons i records ih =>
    obtain ⟨hi, hrecords⟩ := List.forall_mem_cons.mp h
    rw [List.flatMap_cons, List.append_assoc] at hdrop
    have hbehind : p.drop (pos + (encode i).length) = records.flatMap encode ++ rest := by
      rw [← List.drop_drop, hdrop, List.drop_left]
    rw [List.length_cons, ← Nat.add_assoc, walkFrom_of_drop_eq_encode_append hi hdrop, execAll, andThen_assoc,
      List.flatMap_cons, List.length_append, ← Nat.add_assoc]
    exact congrArg (andThen (exec i s)) (funext (ih hrecords hbehind))

/-- The walk of sub-records with any bytes behind them runs the sub-records, then walks what is behind them; the iterations left are
at least as many as the bytes left. -/
theorem walk_flatMap_encode_append {records : List Instr} (h : ∀ i ∈ records, i.isRecord = true) (tail : List Byte)
    (s : State) :
    ∃ fuel, tail.length ≤ fuel ∧ walk (records.flatMap encode ++ tail) s =
      andThen (execAll records s)
        (walkFrom (records.flatMap encode ++ tail) fuel (records.flatMap encode).length) := by
  have hcount := length_le_length_flatMap_encode records
  have hlen : (records.flatMap encode ++ tail).length = (records.flatMap encode).length + tail.length := List.length_append
  obtain ⟨fuel, hfuel⟩ := Nat.exists_eq_add_of_le' (hcount.trans (hlen ▸ Nat.le_add_right _ tail.length))
  refine ⟨fuel, by omega, ?_⟩
  rw [walk, hfuel, walkFrom_of_drop_eq_flatMap_encode_append h List.drop_zero, Nat.zero_add]

/-! ### Accepted frames -/

/-- Settles O16: the walk runs the sub-records and finds the end of the payload behind them. -/
theorem genoutRunsEveryRecord : Obligations.GenoutRunsEveryRecord := by
  intro status txn records s h
  obtain ⟨items, hcount, hcodes, hrun⟩ := execAll_records_eq_emitAll h s
  refine ⟨items, hcount, hcodes, hrun, ?_⟩
  obtain ⟨fuel, -, hwalk⟩ := walk_flatMap_encode_append h [] s
  rw [List.append_nil] at hwalk
  rw [exec_acceptedFrame, hwalk, hrun, andThen_next, walkFrom_end _ _ _ _ le_rfl]
  rfl

/-- Settles O17: the walk runs the sub-records, and behind them finds bytes that do not fit; a payload's offsets and lengths fit a
byte. -/
theorem genoutTruncation : Obligations.GenoutTruncation := by
  intro status txn records tail s h hun hlen
  obtain ⟨items, hcount, hcodes, hrun⟩ := execAll_records_eq_emitAll h s
  obtain ⟨fuel, hfuel, hwalk⟩ := walk_flatMap_encode_append h tail s
  rw [List.length_append] at hlen
  refine ⟨items, byteOfNat (records.flatMap encode).length, byteOfNat tail.length, hcount, hcodes,
    byteOfNat_toNat _ (by omega), byteOfNat_toNat _ (by omega), hrun, ?_⟩
  have hne : 0 < tail.length := List.length_pos_of_ne_nil (by rintro rfl; cases hun)
  obtain ⟨fuel, rfl⟩ := Nat.exists_eq_succ_of_ne_zero (hne.trans_le hfuel).ne'
  have hbehind : unfitting ((records.flatMap encode ++ tail).drop (records.flatMap encode).length) = true := by
    rwa [List.drop_left]
  rw [exec_acceptedFrame, hwalk, hrun, andThen_next, walkFrom_of_unfitting hbehind, List.length_append,
    Nat.add_sub_cancel_left]
  rfl

end Sys2Proof.Machine
end

section
/-!
PROOFS. The record decoders (44_record_decoders.md): a sample's wire fields are the body's first bytes, and the refusals each report
one error.
-/

namespace Sys2Proof.Machine

/-! ### What the word reads answer -/

/-- A read as a word of `8n` bits answers `v` exactly when the read answers the value of `v` (R121 to R126). -/
theorem memRead_map_eq_some {s : List Byte} {a : Nat} (n : Nat) {v : BitVec (8 * n)} :
    (memRead s a n).map (BitVec.ofNat (8 * n)) = some v ↔ memRead s a n = some v.toNat := by
  constructor
  · intro h
    obtain ⟨m, hm, rfl⟩ := Option.map_eq_some_iff.mp h
    rw [hm, BitVec.toNat_ofNat, Nat.mod_eq_of_lt (memRead_lt hm)]
  · intro h
    rw [h, Option.map_some, BitVec.ofNat_toNat, BitVec.setWidth_eq]

theorem beU8_eq_some {s : List Byte} {a : Nat} {v : Byte} : beU8 s a = some v ↔ memRead s a 1 = some v.toNat :=
  memRead_map_eq_some 1

theorem beU16_eq_some {s : List Byte} {a : Nat} {v : U16} : beU16 s a = some v ↔ memRead s a 2 = some v.toNat :=
  memRead_map_eq_some 2

theorem beU32_eq_some {s : List Byte} {a : Nat} {v : U32} : beU32 s a = some v ↔ memRead s a 4 = some v.toNat :=
  memRead_map_eq_some 4

theorem beF32_eq_some {s : List Byte} {a : Nat} {v : F32Bits} : beF32 s a = some v ↔ memRead s a 4 = some v.toNat :=
  memRead_map_eq_some 4

theorem beF64_eq_some {s : List Byte} {a : Nat} {v : F64Bits} : beF64 s a = some v ↔ memRead s a 8 = some v.toNat :=
  memRead_map_eq_some 8

/-! ### A sample and the bytes it is read from -/

/-- Fields that stand one behind the other from offset `a` on are the bytes there. -/
theorem fieldBytes_of_readsFields {s : List Byte} {a : Nat} {fields : List Field} (h : ReadsFields s a fields) :
    fieldBytes fields = (s.drop a).take (fieldBytes fields).length := by
  induction fields generalizing a with
  | nil => rfl
  | cons f fields ih =>
    obtain ⟨hhead, htail⟩ := h
    have hcons : fieldBytes (f :: fields) = beBytes f.1 f.2.toNat ++ fieldBytes fields := List.flatMap_cons
    rw [hcons, List.length_append, beBytes_length, List.take_add, List.drop_drop, ← ih htail, ← beBytes_of_memRead hhead]

/-- The type 49 decoder reads the fields of R91 one behind the other from the body's first byte on (R201). -/
theorem readInsSample_eq_some_iff_readsFields {r : List Byte} {now : Timestamp} {x : InsSample} :
    readInsSample r now = some x ↔ ReadsFields r 2 (insFields x) ∧ x.captureTs = now := by
  simp only [readInsSample_eq_some, beU8_eq_some, beU16_eq_some, beU32_eq_some, beF32_eq_some, beF64_eq_some, ReadsFields,
    insFields, Nat.reduceAdd, and_assoc, true_and]

/-- The type 50 decoder reads the fields of R92 one behind the other from the body's first byte on (R203). -/
theorem readRmsSample_eq_some_iff_readsFields {r : List Byte} {now : Timestamp} {x : RmsSample} :
    readRmsSample r now = some x ↔ ReadsFields r 2 (rmsFields x) ∧ x.captureTs = now := by
  simp only [readRmsSample_eq_some, beU8_eq_some, beU16_eq_some, beU32_eq_some, beF32_eq_some, ReadsFields, rmsFields,
    Nat.reduceAdd, and_assoc, true_and]

/-- The wire fields of a type 49 sample are the body's first 104 bytes (R201). -/
theorem insBody_of_readInsSample {t : Byte} {body : List Byte} {now : Timestamp} {x : InsSample}
    (h : readInsSample (recordBytes t body) now = some x) : insBody x = body.take 104 := by
  obtain ⟨hreads, -⟩ := readInsSample_eq_some_iff_readsFields.mp h
  have hbytes := fieldBytes_of_readsFields hreads
  rwa [fieldBytes_insFields, insBody_length] at hbytes

/-- The wire fields of a type 50 sample are the body's first 44 bytes (R203). -/
theorem rmsBody_of_readRmsSample {t : Byte} {body : List Byte} {now : Timestamp} {x : RmsSample}
    (h : readRmsSample (recordBytes t body) now = some x) : rmsBody x = body.take 44 := by
  obtain ⟨hreads, -⟩ := readRmsSample_eq_some_iff_readsFields.mp h
  have hbytes := fieldBytes_of_readsFields hreads
  rwa [fieldBytes_rmsFields, rmsBody_length] at hbytes

/-! ### The obligations -/

/-- Settles O21: of the two things INS can do, a body this long leaves the sample, and its fields are the bytes read. -/
theorem insDecodes : Obligations.InsDecodes := by
  intro body s hlen
  rcases execIns_cases body s with ⟨hshort, -⟩ | ⟨-, x, hx, hexec⟩
  · exact absurd hlen hshort.not_ge
  · exact ⟨x, insBody_of_readInsSample hx, readInsSample_captureTs hx, hexec⟩

/-- Settles O23: of the two things INS_RMS can do, a body this long leaves the sample, and its fields are the bytes read. -/
theorem insRmsDecodes : Obligations.InsRmsDecodes := by
  intro body s hlen
  rcases execInsRms_cases body s with ⟨hshort, -⟩ | ⟨-, x, hx, hexec⟩
  · exact absurd hlen hshort.not_ge
  · exact ⟨x, rmsBody_of_readRmsSample hx, readRmsSample_captureTs hx, hexec⟩

/-- Settles O22: of the two things INS can do, a body this short leaves the report. -/
theorem insTooShort : Obligations.InsTooShort := by
  intro body s hshort
  rcases execIns_cases body s with ⟨-, hexec⟩ | ⟨hlen, -⟩
  · exact hexec
  · exact absurd hlen hshort.not_ge

/-- Settles O24: of the two things INS_RMS can do, a body this short leaves the report. -/
theorem insRmsTooShort : Obligations.InsRmsTooShort := by
  intro body s hshort
  rcases execInsRms_cases body s with ⟨-, hexec⟩ | ⟨hlen, -⟩
  · exact hexec
  · exact absurd hlen hshort.not_ge

/-- Settles O25: REC51 is one raise, which appends one item of code 8 (R239, R241). -/
theorem rec51ReportsUnimplemented : Obligations.Rec51ReportsUnimplemented :=
  fun body s => congrArg Host.Outcome.next
    (State.raise_eq_emit s .unknownOrUnimplementedRecordType Config.rec51 (byteOfNat body.length))

/-- Settles O26: REC_OTHER is one raise, which appends one item of code 8 (R239, R241). -/
theorem recOtherReportsUnknown : Obligations.RecOtherReportsUnknown :=
  fun t body s => congrArg Host.Outcome.next
    (State.raise_eq_emit s .unknownOrUnimplementedRecordType t (byteOfNat body.length))

end Sys2Proof.Machine
end

section
/-!
PROOFS. The errors (60_exceptions.md): what each refusal of a frame records, which items a frame and a step can append, where in a
payload a sample's sub-record stands, and that no input event stops the block.
-/

namespace Sys2Proof.Machine

/-! ### What a sub-record gives -/

/-- The items that a sub-record can give with `now` on the timestamp input: a sample of its own type, made of its body's first bytes,
or a record error (R185, R230). -/
inductive RecordItem (now : Timestamp) : Instr → Item → Prop
  | ins {body : List Byte} {x : InsSample} (hmin : 104 ≤ body.length) (hfields : insBody x = body.take 104)
      (hts : x.captureTs = now) : RecordItem now (.ins body) (.ins x)
  | rms {body : List Byte} {x : RmsSample} (hmin : 44 ≤ body.length) (hfields : rmsBody x = body.take 44)
      (hts : x.captureTs = now) : RecordItem now (.insRms body) (.rms x)
  | refused (i : Instr) {e : ErrorKind} (he : e.errorClass = .recordError) (aux0 aux1 : Byte) :
      RecordItem now i (e.item aux0 aux1)

theorem ErrorKind.errorClass_eq_recordError_iff (e : ErrorKind) : e.errorClass = .recordError ↔ 8 ≤ e.code.toNat := by
  cases e <;> decide

/-- A record error has code 8 or 9 (R231). -/
theorem ErrorKind.code_of_recordError {e : ErrorKind} (he : e.errorClass = .recordError) : e.code = 8 ∨ e.code = 9 := by
  cases e with
  | unknownOrUnimplementedRecordType => exact .inl rfl
  | recordTooShort => exact .inr rfl
  | _ => cases he

theorem exec_record_item {i : Instr} (hf : i.format = .subRecord) (s : State) :
    ∃ item, RecordItem s.now i item ∧ exec i s = .next (s.emit item) := by
  cases i with
  | genout => cases hf
  | pktOther => cases hf
  | ins body =>
    rcases execIns_cases body s with ⟨-, he⟩ | ⟨hmin, x, hx, he⟩
    · exact ⟨_, .refused _ rfl _ _, he⟩
    · exact ⟨_, .ins hmin (insBody_of_readInsSample hx) (readInsSample_captureTs hx), he⟩
  | insRms body =>
    rcases execInsRms_cases body s with ⟨-, he⟩ | ⟨hmin, x, hx, he⟩
    · exact ⟨_, .refused _ rfl _ _, he⟩
    · exact ⟨_, .rms hmin (rmsBody_of_readRmsSample hx) (readRmsSample_captureTs hx), he⟩
  | rec51 body => exact ⟨_, .refused _ rfl _ _, rfl⟩
  | recOther t body => exact ⟨_, .refused _ rfl _ _, rfl⟩

theorem RecordItem.sample_or_recordError {now : Timestamp} {i : Instr} {item : Item} (h : RecordItem now i item) :
    item.channel ≠ .err ∨ ∃ a b, item = .err 8 a b ∨ item = .err 9 a b := by
  cases h with
  | ins => exact .inl (by simp [Item.channel])
  | rms => exact .inl (by simp [Item.channel])
  | refused _ he aux0 aux1 =>
    refine .inr ⟨aux0, aux1, ?_⟩
    rcases ErrorKind.code_of_recordError he with hcode | hcode
    · exact .inl (by rw [ErrorKind.item, hcode])
    · exact .inr (by rw [ErrorKind.item, hcode])

/-- Sub-records give their items in order, one each (R185, R188). -/
theorem execAll_record_items {records : List Instr} (h : ∀ i ∈ records, i.isRecord = true) (s : State) :
    ∃ items, List.Forall₂ (RecordItem s.now) records items ∧ execAll records s = .next (s.emitAll items) := by
  induction records generalizing s with
  | nil => exact ⟨[], .nil, by rw [execAll, State.emitAll_nil]⟩
  | cons i records ih =>
    obtain ⟨hi, hrecords⟩ := List.forall_mem_cons.mp h
    obtain ⟨item, hitem, hexec⟩ := exec_record_item ((isRecord_iff i).mp hi).2 s
    obtain ⟨items, hitems, hrun⟩ := ih hrecords (s.emit item)
    refine ⟨item :: items, .cons hitem hitems, ?_⟩
    rw [execAll, hexec, andThen_next, hrun, State.emit_eq_emitAll, State.emitAll_emitAll, List.singleton_append]

/-! ### What a walk gives -/

/-- Every sub-record takes at least its type and length bytes (R90). -/
theorem two_mul_length_le_length_flatMap_encode (records : List Instr) :
    2 * records.length ≤ (records.flatMap encode).length := by
  induction records with
  | nil => simp
  | cons i records ih =>
    have hheader : 2 ≤ (encode i).length := by cases i <;> exact Nat.le_add_left 2 _
    rw [List.flatMap_cons, List.length_append, List.length_cons]
    omega

/-- What a walk gives: one item for each whole sub-record at the head of the payload, and a TruncatedSubRecord when bytes are left
behind them; so at most one item for every two bytes begun (R182 to R188). -/
theorem walk_items (payload : List Byte) (s : State) :
    ∃ records tail recs last, (∀ i ∈ records, i.isRecord = true) ∧ payload = records.flatMap encode ++ tail ∧
      List.Forall₂ (RecordItem s.now) records recs ∧ (last = [] ∨ ∃ a b, last = [Item.err 7 a b]) ∧
      2 * (recs ++ last).length ≤ payload.length + 1 ∧ walk payload s = .next (s.emitAll (recs ++ last)) := by
  obtain ⟨records, tail, hrecords, rfl, htail, -⟩ := everyPayloadSplits payload
  obtain ⟨recs, hrecs, hrun⟩ := execAll_record_items hrecords s
  obtain ⟨fuel, hfuel, hwalk⟩ := walk_flatMap_encode_append hrecords tail s
  rw [hrun, andThen_next] at hwalk
  have hcount := two_mul_length_le_length_flatMap_encode records
  rw [hrecs.length_eq] at hcount
  rcases htail with rfl | hun
  · refine ⟨records, [], recs, [], hrecords, rfl, hrecs, .inl rfl, ?_, ?_⟩
    · rw [List.append_nil, List.append_nil]
      exact hcount.trans (Nat.le_succ _)
    · rw [hwalk, walkFrom_end _ _ _ _ (by rw [List.append_nil]), List.append_nil]
  · have hleft : 0 < tail.length := List.length_pos_of_ne_nil (by rintro rfl; cases hun)
    obtain ⟨fuel, rfl⟩ := Nat.exists_eq_succ_of_ne_zero (hleft.trans_le hfuel).ne'
    have hbehind : unfitting ((records.flatMap encode ++ tail).drop (records.flatMap encode).length) = true := by
      rwa [List.drop_left]
    refine ⟨records, tail, recs, [.err 7 (byteOfNat (records.flatMap encode).length) (byteOfNat tail.length)], hrecords, rfl,
      hrecs, .inr ⟨_, _, rfl⟩, ?_, ?_⟩
    · rw [List.length_append, List.length_append, List.length_singleton]
      omega
    · rw [hwalk, walkFrom_of_unfitting hbehind, List.length_append, Nat.add_sub_cancel_left, ← State.emitAll_emitAll]
      rfl

/-! ### What a frame gives -/

/-- What GENOUT can do, with what its checks tell: it raises one error of codes 3 to 6, or every check holds and the payload is
walked (R160, R168). -/
theorem execGenout_raises_or_accepts (status : Byte) (region : List Byte) (checksum etx : Byte) (s : State) :
    (∃ e aux0 aux1, 3 ≤ e.code.toNat ∧ e.code.toNat ≤ 6 ∧
      execGenout status region checksum etx s = .next (s.raise e aux0 aux1)) ∨
    (∃ txn payload, region = txn :: 0 :: 0 :: payload ∧ checksum = frameChecksum status Config.pktGenout region ∧
      etx = Config.etx ∧ execGenout status region checksum etx s = walk payload s) := by
  match region with
  | [] | [_] | [_, _] => exact .inl ⟨.lengthTooShort, _, _, by decide, by decide, rfl⟩
  | txn :: page :: maxPage :: payload =>
    rw [execGenout_paged]
    split_ifs with hpage hsum hetx
    · exact .inl ⟨.multiPageUnsupported, _, _, by decide, by decide, rfl⟩
    · exact .inl ⟨.checksumMismatch, _, _, by decide, by decide, rfl⟩
    · exact .inl ⟨.badEnd, _, _, by decide, by decide, rfl⟩
    · obtain ⟨rfl, rfl⟩ : page = 0 ∧ maxPage = 0 := by simpa only [not_or, not_not] using hpage
      exact .inr ⟨txn, payload, rfl, (not_not.mp hsum).symm, not_not.mp hetx, rfl⟩

/-- The items that one frame can give: one error of codes 2 to 6, or at most 126 items of its sub-records, of which only the last may
be a TruncatedSubRecord (R169, R247). -/
def FrameItems (items : List Item) : Prop :=
  (∃ code a b, items = [.err code a b] ∧ 2 ≤ code.toNat ∧ code.toNat ≤ 6) ∨
  (∃ recs last, items = recs ++ last ∧ items.length ≤ 126 ∧ (last = [] ∨ ∃ a b, last = [.err 7 a b]) ∧
    ∀ item ∈ recs, item.channel ≠ .err ∨ ∃ a b, item = .err 8 a b ∨ item = .err 9 a b)

theorem exec_frame_items {i : Instr} (hi : i.isFrame = true) (s : State) :
    ∃ items, FrameItems items ∧ exec i s = .next (s.emitAll items) := by
  obtain ⟨hwf, hformat⟩ : WellFormed i = true ∧ i.format = .outerFrame := by simpa using hi
  have hregion := Laws.counted_length_le i hwf
  cases i with
  | genout status region checksum etx =>
    rcases execGenout_raises_or_accepts status region checksum etx s with
      ⟨e, aux0, aux1, hlo, hhi, hexec⟩ | ⟨txn, payload, rfl, -, -, hexec⟩
    · exact ⟨_, .inl ⟨_, _, _, rfl, by omega, hhi⟩, hexec⟩
    · obtain ⟨records, tail, recs, last, -, -, hrecs, hlast, hcount, hwalk⟩ := walk_items payload s
      refine ⟨recs ++ last, .inr ⟨recs, last, rfl, ?_, hlast, fun item hmem => ?_⟩, hexec.trans hwalk⟩
      · simp only [Instr.counted, List.length_cons] at hregion
        omega
      · obtain ⟨k, hk, rfl⟩ := List.getElem_of_mem hmem
        exact (hrecs.get (hrecs.length_eq ▸ hk) hk).sample_or_recordError
  | pktOther status ty region checksum etx => exact ⟨_, .inl ⟨2, ty, 0, rfl, by decide, by decide⟩, rfl⟩
  | ins => cases hformat
  | insRms => cases hformat
  | rec51 => cases hformat
  | recOther => cases hformat

/-- Settles O19: PKT_OTHER and the refusals of GENOUT raise one error; the payload of an accepted frame has at most 252 bytes, and a
walk gives at most one item for every two bytes begun. -/
theorem frameItemsShape : Obligations.FrameItemsShape := by
  intro i s hi
  obtain ⟨items, hshape, hexec⟩ := exec_frame_items hi s
  refine ⟨items, hexec, hshape.imp_left ?_⟩
  rintro ⟨code, a, b, hitems, hlo, hhi⟩
  exact ⟨code, a, b, hitems, by omega, hhi⟩

/-! ### Where a sample comes from -/

/-- Right behind `k` whole sub-records of the payload stands a whole sub-record that gives `item` (R189). -/
def GivenAt (now : Timestamp) (payload : List Byte) (k : Nat) (item : Item) : Prop :=
  ∃ (records : List Instr) (i : Instr) (rest : List Byte), (∀ j ∈ records, j.isRecord = true) ∧ records.length = k ∧
    i.isRecord = true ∧ RecordItem now i item ∧ payload = records.flatMap encode ++ (encode i ++ rest)

/-- The sub-record that gives item `k` is sub-record `k`. -/
theorem givenAt_of_getElem? {now : Timestamp} {records : List Instr} {recs : List Item} {k : Nat} {item : Item}
    (hrecords : ∀ i ∈ records, i.isRecord = true) (hrecs : List.Forall₂ (RecordItem now) records recs)
    (hk : recs[k]? = some item) (tail : List Byte) : GivenAt now (records.flatMap encode ++ tail) k item := by
  obtain ⟨hlt, rfl⟩ := List.getElem?_eq_some_iff.mp hk
  have hlt' : k < records.length := hrecs.length_eq ▸ hlt
  refine ⟨records.take k, records[k], (records.drop (k + 1)).flatMap encode ++ tail,
    fun j hj => hrecords j (List.mem_of_mem_take hj), List.length_take_of_le hlt'.le,
    hrecords _ (List.getElem_mem hlt'), hrecs.get hlt' hlt, ?_⟩
  calc records.flatMap encode ++ tail
      = (records.take k ++ records[k] :: records.drop (k + 1)).flatMap encode ++ tail := by
        rw [← List.drop_eq_getElem_cons hlt', List.take_append_drop]
    _ = _ := by rw [List.flatMap_append, List.flatMap_cons, List.append_assoc, List.append_assoc]

/-- A sample that a walk gives is given by the sub-record of its number (R189, R248). -/
theorem walk_samples (payload : List Byte) (s : State) :
    ∃ items, walk payload s = .next (s.emitAll items) ∧
      ∀ k item, items[k]? = some item → item.channel ≠ .err → GivenAt s.now payload k item := by
  obtain ⟨records, tail, recs, last, hrecords, rfl, hrecs, hlast, -, hwalk⟩ := walk_items payload s
  refine ⟨recs ++ last, hwalk, fun k item hk hsample => ?_⟩
  by_cases hlt : k < recs.length
  · rw [List.getElem?_append_left hlt] at hk
    exact givenAt_of_getElem? hrecords hrecs hk tail
  · rw [List.getElem?_append_right (Nat.le_of_not_lt hlt)] at hk
    have hmem := List.mem_of_getElem? hk
    rcases hlast with rfl | ⟨a, b, rfl⟩
    · cases hmem
    · obtain rfl := List.mem_singleton.mp hmem
      exact absurd rfl hsample

/-- A sample that GENOUT gives comes out of the walk of an accepted frame's payload (R248). -/
theorem execGenout_samples (status : Byte) (region : List Byte) (checksum etx : Byte) (s : State) :
    ∃ items, execGenout status region checksum etx s = .next (s.emitAll items) ∧
      ∀ k item, items[k]? = some item → item.channel ≠ .err →
        ∃ txn payload, region = txn :: 0 :: 0 :: payload ∧ checksum = frameChecksum status Config.pktGenout region ∧
          etx = Config.etx ∧ GivenAt s.now payload k item := by
  rcases execGenout_raises_or_accepts status region checksum etx s with
    ⟨e, aux0, aux1, -, -, hexec⟩ | ⟨txn, payload, hregion, hsum, hetx, hexec⟩
  · refine ⟨[.err e.code aux0 aux1], hexec, fun k item hk hsample => ?_⟩
    obtain rfl := List.mem_singleton.mp (List.mem_of_getElem? hk)
    exact absurd rfl hsample
  · obtain ⟨items, hwalk, hgiven⟩ := walk_samples payload s
    exact ⟨items, hexec.trans hwalk, fun k item hk hsample => ⟨txn, payload, hregion, hsum, hetx, hgiven k item hk hsample⟩⟩

/-- A sub-record's bytes, read as its type byte, its length byte and what stands behind them (R90). -/
theorem recordBytes_append_layout (t : Byte) {body : List Byte} (hlen : body.length ≤ 255) {n : Nat} (hmin : n ≤ body.length)
    (rest : List Byte) :
    ∃ l tail, recordBytes t body ++ rest = t :: l :: tail ∧ n ≤ l.toNat ∧ l.toNat ≤ tail.length ∧
      body.take n = tail.take n := by
  refine ⟨byteOfNat body.length, body ++ rest, rfl, ?_, ?_, (List.take_append_of_le_length hmin).symm⟩
  · rwa [byteOfNat_toNat _ hlen]
  · rw [byteOfNat_toNat _ hlen, List.length_append]
    exact Nat.le_add_right _ _

/-- An INS sample is made of a type 49 sub-record's bytes (R201). -/
theorem GivenAt.ins {now : Timestamp} {payload : List Byte} {k : Nat} {x : InsSample} (h : GivenAt now payload k (.ins x)) :
    ∃ (records : List Instr) (l : Byte) (tail : List Byte), payload = records.flatMap encode ++ 0x31 :: l :: tail ∧
      (∀ i ∈ records, i.isRecord = true) ∧ records.length = k ∧ 104 ≤ l.toNat ∧ l.toNat ≤ tail.length ∧
      insBody x = tail.take 104 ∧ x.captureTs = now := by
  obtain ⟨records, _, rest, hrecords, hk, hi, hitem, rfl⟩ := h
  have hlen := Laws.counted_length_le _ ((isRecord_iff _).mp hi).1
  generalize hx : Item.ins x = item at hitem
  cases hitem with
  | ins hmin hfields hts =>
    cases hx
    obtain ⟨l, tail, hbytes, hl, hfits, htake⟩ := recordBytes_append_layout 0x31 hlen hmin rest
    exact ⟨records, l, tail, congrArg _ hbytes, hrecords, hk, hl, hfits, hfields.trans htake, hts⟩
  | rms => cases hx
  | refused => cases hx

/-- An RMS sample is made of a type 50 sub-record's bytes (R203). -/
theorem GivenAt.rms {now : Timestamp} {payload : List Byte} {k : Nat} {x : RmsSample} (h : GivenAt now payload k (.rms x)) :
    ∃ (records : List Instr) (l : Byte) (tail : List Byte), payload = records.flatMap encode ++ 0x32 :: l :: tail ∧
      (∀ i ∈ records, i.isRecord = true) ∧ records.length = k ∧ 44 ≤ l.toNat ∧ l.toNat ≤ tail.length ∧
      rmsBody x = tail.take 44 ∧ x.captureTs = now := by
  obtain ⟨records, _, rest, hrecords, hk, hi, hitem, rfl⟩ := h
  have hlen := Laws.counted_length_le _ ((isRecord_iff _).mp hi).1
  generalize hx : Item.rms x = item at hitem
  cases hitem with
  | ins => cases hx
  | rms hmin hfields hts =>
    cases hx
    obtain ⟨l, tail, hbytes, hl, hfits, htake⟩ := recordBytes_append_layout 0x32 hlen hmin rest
    exact ⟨records, l, tail, congrArg _ hbytes, hrecords, hk, hl, hfits, hfields.trans htake, hts⟩
  | refused => cases hx

/-- Settles O20: only the walk of an accepted frame gives samples, and it gives one item for each whole sub-record, in order, so that
item `k` is given by the sub-record behind the first `k`. -/
theorem samplesComeFromGoodRecords : Obligations.SamplesComeFromGoodRecords := by
  intro status region checksum etx s t hexec
  obtain ⟨items, hitems, hsamples⟩ := execGenout_samples status region checksum etx s
  cases hitems.symm.trans hexec
  refine ⟨items, rfl, fun k x hk => ?_, fun k x hk => ?_⟩
  · obtain ⟨txn, payload, hregion, hsum, hetx, hgiven⟩ := hsamples k _ hk (by simp [Item.channel])
    obtain ⟨records, l, tail, rfl, hrest⟩ := hgiven.ins
    exact ⟨txn, records, l, tail, hregion, hsum, hetx, hrest⟩
  · obtain ⟨txn, payload, hregion, hsum, hetx, hgiven⟩ := hsamples k _ hk (by simp [Item.channel])
    obtain ⟨records, l, tail, rfl, hrest⟩ := hgiven.rms
    exact ⟨txn, records, l, tail, hregion, hsum, hetx, hrest⟩

/-! ### Refusals of a frame -/

/-- Settles O14: the sum over the encoding's offsets is the frame's checksum, and the clauses are the failing checks in order. -/
theorem genoutRefusals : Obligations.GenoutRefusals := by
  intro status region checksum etx s _ i sum
  have hsum : sum = frameChecksum status Config.pktGenout region := sum8_frameBytes status Config.pktGenout region checksum etx
  refine ⟨fun hshort => execGenout_short status hshort checksum etx s, ?_⟩
  rintro txn page maxPage payload rfl
  have hexec : exec i s = _ := execGenout_paged status txn page maxPage payload checksum etx s
  rw [hexec, hsum]
  refine ⟨fun hpage => if_pos hpage, ?_, ?_⟩
  · rintro ⟨rfl, rfl⟩ hne
    rw [if_neg (by simp), if_pos hne]
    rfl
  · rintro ⟨rfl, rfl⟩ heq hetx
    rw [if_neg (by simp), if_neg (not_not.mpr heq), if_pos hetx]
    rfl

/-- Settles O13: every other packet type selects PKT_OTHER, which is one raise. -/
theorem pktOtherReportsItsType : Obligations.PktOtherReportsItsType := by
  intro status ty region checksum etx s hty hlen
  have hdecode := decode_frameBytes status ty region checksum etx [] hlen
  rw [List.append_nil, selectFrame, if_neg hty] at hdecode
  exact ⟨hdecode, rfl⟩

/-! ### Every instruction, and raising an error -/

/-- Settles O29: appending items leaves the other fields of the state as they are. -/
theorem execOnlyAppendsItems : Obligations.ExecOnlyAppendsItems := by
  intro i s
  obtain ⟨items, hexec⟩ := exec_eq_emitAll i s
  exact ⟨items, s.emitAll items, hexec, rfl, fun _ => rfl, rfl, rfl, rfl⟩

/-- Settles O31: raising is one append, and the table of R231 is read off code by code. -/
theorem raiseAppendsOneItem : Obligations.RaiseAppendsOneItem :=
  ⟨fun s e a b => s.raise_eq_emitAll e a b, by decide, ErrorKind.errorClass_eq_recordError_iff⟩

/-! ### Steps -/

/-- What a step can do from a state that meets R21: it goes on and emits nothing, or it runs a well-formed frame and then empties the
buffer. -/
theorem step_cases_of_inv {s : State} (h : s.Inv) :
    (∃ t, step s = .next t ∧ t.out = s.out) ∨
    (∃ i u, i.isFrame = true ∧ u.out = s.out ∧ step s = andThen (exec i u) (fun t => .next t.clearBuf)) := by
  obtain ⟨held, hbuf, hpartial⟩ := s.inv_iff.mp h
  rcases step_cases s with ⟨-, hs⟩ | ⟨rest, -, hs⟩ |
      ⟨b, now, rest, hin, ⟨-, -, hs⟩ | ⟨-, -, hs⟩ | ⟨-, hfull, -⟩ | ⟨hheld, -, ⟨-, hs⟩ | ⟨hcomplete, -⟩⟩⟩
  case inr.inr.inr.inr.inl =>  -- an append past the last address
    have hfree := hpartial.length_lt
    rw [hbuf, Memory.ofBytes_fill] at hfull
    exact absurd hfree hfull.not_gt
  case inr.inr.inr.inr.inr.inr =>  -- the byte that completes a candidate
    have hstored : s.buf ++ [(s.buf.fill, b)] = Memory.ofBytes (held ++ [b]) := by
      rw [hbuf, Memory.ofBytes_fill, Memory.ofBytes_append]
    rw [State.setBuf_buf, hstored] at hcomplete
    obtain ⟨len, hlen, hsize⟩ := (Memory.ofBytes_complete _).mp hcomplete
    have hne : held ≠ [] := fun hnil => hheld (by rw [hbuf, hnil]; rfl)
    have hstart : (held ++ [b])[0]? = some Config.stx := by
      rw [List.getElem?_append_left (List.length_pos_of_ne_nil hne)]
      exact hpartial.1 hne
    obtain ⟨i, _, hdecode⟩ := exists_decode_of_candidate hstart hlen hsize
    obtain ⟨-, hwf, hformat⟩ := encodeInvertsDecode _ _ _ _ hdecode
    have hstep := step_of_completing hbuf hin hlen hsize
    rw [runFrame_of_decode hdecode] at hstep
    refine .inr ⟨i, { buf := Memory.ofBytes (held ++ [b]), now := now, input := rest, out := s.out }, ?_, rfl, hstep⟩
    simp [hwf, hformat]
  all_goals exact .inl ⟨_, hs, rfl⟩  -- the rows that emit nothing

/-- Settles O41: the rows that emit nothing go on, and every instruction completes. -/
theorem stepNeverStops : Obligations.StepNeverStops := by
  intro s hinv
  rcases step_cases_of_inv hinv with ⟨t, hs, -⟩ | ⟨i, u, -, -, hs⟩
  · exact ⟨t, hs⟩
  · obtain ⟨items, hexec⟩ := exec_eq_emitAll i u
    exact ⟨_, by rw [hs, hexec, andThen_next]⟩

/-- The errors that one frame gives have codes 2 to 9 (R231, R232). -/
theorem FrameItems.code_range {items : List Item} (h : FrameItems items) {code : BitVec 4} {a b : Byte}
    (hmem : Item.err code a b ∈ items) : 2 ≤ code.toNat ∧ code.toNat ≤ 9 := by
  rcases h with ⟨_, _, _, rfl, hlo, hhi⟩ | ⟨recs, last, rfl, -, hlast, hrecs⟩
  · cases List.mem_singleton.mp hmem
    exact ⟨hlo, by omega⟩
  rcases List.mem_append.mp hmem with hmem | hmem
  · rcases hrecs _ hmem with hsample | ⟨_, _, hitem | hitem⟩
    · exact absurd rfl hsample
    · cases hitem
      decide
    · cases hitem
      decide
  · rcases hlast with rfl | ⟨_, _, rfl⟩
    · cases hmem
    · cases List.mem_singleton.mp hmem
      decide

/-- Settles O37: what a step emits is what one frame gives, and BadStart is not among that. -/
theorem emittedCodes : Obligations.EmittedCodes := by
  intro s t hinv h
  rcases step_cases_of_inv hinv with ⟨u, hs, hout⟩ | ⟨i, u, hi, hout, hs⟩
  · cases hs.symm.trans h
    exact ⟨[], by rw [hout, List.append_nil], by simp⟩
  · obtain ⟨items, hitems, hexec⟩ := exec_frame_items hi u
    rw [hs, hexec, andThen_next] at h
    cases h
    exact ⟨items, by rw [← hout]; rfl, fun code a b hmem => hitems.code_range hmem⟩

/-- Settles O39: of the rows of the transition table only the idle one has no event (log entry 1). -/
theorem idleKeepsState : Obligations.IdleKeepsState := by
  intro s hidle
  rcases step_cases s with ⟨-, hs⟩ | ⟨_, hreset, -⟩ | ⟨_, _, _, hbyte, -⟩
  · exact hs
  · cases hidle.symm.trans hreset
  · cases hidle.symm.trans hbyte

end Sys2Proof.Machine
end

section
/-!
PROOFS. Reset and hazards (70_reset_and_hazards.md): the `Reset` event, and the one input whose value depends on when it is sampled,
the timestamp.
-/

namespace Sys2Proof.Machine

/-- Settles O44: a byte event replaces the value on the timestamp input, and what the step emits is stamped by the byte it takes. -/
theorem samplesCarryNow : Obligations.SamplesCarryNow := by
  intro s t b now earlier rest hin h
  refine ⟨(step_setNow_of_byte hin earlier).trans h, ?_⟩
  obtain ⟨items, hout, rfl | ⟨_, _, hbyte, hstamp⟩⟩ := step_stampedWith h
  · exact ⟨[], hout, by simp⟩
  · rw [hin, List.head?_cons] at hbyte
    cases hbyte
    exact ⟨items, hout, hstamp⟩

/-- Settles O38: of the rows of the transition table only one takes a `Reset` (R270), and an empty buffer is in HUNT. -/
theorem step_resetEvent : Obligations.ResetEvent := by
  intro s rest hin
  rcases step_cases s with ⟨hidle, -⟩ | ⟨_, hreset, hs⟩ | ⟨_, _, _, hbyte, -⟩
  · cases hin.symm.trans hidle
  · cases hin.symm.trans hreset
    exact ⟨_, hs, rfl, (State.mode_eq_hunt _).mpr rfl⟩
  · cases hin.symm.trans hbyte

end Sys2Proof.Machine
end
